-- ==== Sys2Proof/Word.lean ====
section
/-! DEFINITION. The two word types of the core (00_scope.md R4, R5): an 8-bit byte and a 16-bit address. -/

namespace Sys2Proof

/-- `u8`: a register, a flag byte, a memory cell or an operand byte. -/
abbrev Byte := BitVec 8

/-- `u16`: the program counter or a memory address. -/
abbrev Addr := BitVec 16

end Sys2Proof
end

