-- ==== Sys2Proof/Syntax.lean ====
section
/-! DEFINITION. The instructions as syntax: one constructor of Instr per row of spec/opcode_table.json (30_encoding.md
R66), each carrying its operand byte or its 16-bit operand (R62), with its mnemonic, its addressing mode, its length
(R60) and the conventional way of writing it (R70). -/

namespace Sys2Proof

/-- The mnemonics of the hardware (00_scope.md R3). -/
inductive Mnemonic where
  | lda | ldx | ldy | sta | stx | sty | tax | txa | tay | tya | tsx | txs | pha | php | pla | plp | asl | lsr
  deriving DecidableEq, Repr

/-- The 13 addressing modes (00_scope.md R8). No opcode of this hardware uses `ind` or `rel`
(40_step_and_addressing.md R104). -/
inductive Mode where
  | imp | acc | imm | zp | zpx | zpy | abs | abx | aby | ind | izx | izy | rel
  deriving DecidableEq, Repr

/-- The 51 instructions (30_encoding.md R66). An immediate value is `v`, a page-0 operand byte `b`, a 16-bit operand
assembled low byte first `w` (R62). -/
inductive Instr where
  | ldaImm (v : Byte)
  | ldaZp (b : Byte)
  | ldaZpx (b : Byte)
  | ldaAbs (w : Addr)
  | ldaAbx (w : Addr)
  | ldaAby (w : Addr)
  | ldaIzx (b : Byte)
  | ldaIzy (b : Byte)
  | ldxImm (v : Byte)
  | ldxZp (b : Byte)
  | ldxZpy (b : Byte)
  | ldxAbs (w : Addr)
  | ldxAby (w : Addr)
  | ldyImm (v : Byte)
  | ldyZp (b : Byte)
  | ldyZpx (b : Byte)
  | ldyAbs (w : Addr)
  | ldyAbx (w : Addr)
  | staZp (b : Byte)
  | staZpx (b : Byte)
  | staAbs (w : Addr)
  | staAbx (w : Addr)
  | staAby (w : Addr)
  | staIzx (b : Byte)
  | staIzy (b : Byte)
  | stxZp (b : Byte)
  | stxZpy (b : Byte)
  | stxAbs (w : Addr)
  | styZp (b : Byte)
  | styZpx (b : Byte)
  | styAbs (w : Addr)
  | tax
  | txa
  | tay
  | tya
  | tsx
  | txs
  | pha
  | php
  | pla
  | plp
  | aslAcc
  | aslZp (b : Byte)
  | aslZpx (b : Byte)
  | aslAbs (w : Addr)
  | aslAbx (w : Addr)
  | lsrAcc
  | lsrZp (b : Byte)
  | lsrZpx (b : Byte)
  | lsrAbs (w : Addr)
  | lsrAbx (w : Addr)
  deriving DecidableEq, Repr

/-- The mnemonic of an instruction (30_encoding.md R66). -/
def Instr.mnemonic : Instr → Mnemonic
  | .ldaImm _ => .lda
  | .ldaZp _ => .lda
  | .ldaZpx _ => .lda
  | .ldaAbs _ => .lda
  | .ldaAbx _ => .lda
  | .ldaAby _ => .lda
  | .ldaIzx _ => .lda
  | .ldaIzy _ => .lda
  | .ldxImm _ => .ldx
  | .ldxZp _ => .ldx
  | .ldxZpy _ => .ldx
  | .ldxAbs _ => .ldx
  | .ldxAby _ => .ldx
  | .ldyImm _ => .ldy
  | .ldyZp _ => .ldy
  | .ldyZpx _ => .ldy
  | .ldyAbs _ => .ldy
  | .ldyAbx _ => .ldy
  | .staZp _ => .sta
  | .staZpx _ => .sta
  | .staAbs _ => .sta
  | .staAbx _ => .sta
  | .staAby _ => .sta
  | .staIzx _ => .sta
  | .staIzy _ => .sta
  | .stxZp _ => .stx
  | .stxZpy _ => .stx
  | .stxAbs _ => .stx
  | .styZp _ => .sty
  | .styZpx _ => .sty
  | .styAbs _ => .sty
  | .tax => .tax
  | .txa => .txa
  | .tay => .tay
  | .tya => .tya
  | .tsx => .tsx
  | .txs => .txs
  | .pha => .pha
  | .php => .php
  | .pla => .pla
  | .plp => .plp
  | .aslAcc => .asl
  | .aslZp _ => .asl
  | .aslZpx _ => .asl
  | .aslAbs _ => .asl
  | .aslAbx _ => .asl
  | .lsrAcc => .lsr
  | .lsrZp _ => .lsr
  | .lsrZpx _ => .lsr
  | .lsrAbs _ => .lsr
  | .lsrAbx _ => .lsr

/-- The addressing mode of an instruction (30_encoding.md R66). -/
def Instr.mode : Instr → Mode
  | .ldaImm _ => .imm
  | .ldaZp _ => .zp
  | .ldaZpx _ => .zpx
  | .ldaAbs _ => .abs
  | .ldaAbx _ => .abx
  | .ldaAby _ => .aby
  | .ldaIzx _ => .izx
  | .ldaIzy _ => .izy
  | .ldxImm _ => .imm
  | .ldxZp _ => .zp
  | .ldxZpy _ => .zpy
  | .ldxAbs _ => .abs
  | .ldxAby _ => .aby
  | .ldyImm _ => .imm
  | .ldyZp _ => .zp
  | .ldyZpx _ => .zpx
  | .ldyAbs _ => .abs
  | .ldyAbx _ => .abx
  | .staZp _ => .zp
  | .staZpx _ => .zpx
  | .staAbs _ => .abs
  | .staAbx _ => .abx
  | .staAby _ => .aby
  | .staIzx _ => .izx
  | .staIzy _ => .izy
  | .stxZp _ => .zp
  | .stxZpy _ => .zpy
  | .stxAbs _ => .abs
  | .styZp _ => .zp
  | .styZpx _ => .zpx
  | .styAbs _ => .abs
  | .tax => .imp
  | .txa => .imp
  | .tay => .imp
  | .tya => .imp
  | .tsx => .imp
  | .txs => .imp
  | .pha => .imp
  | .php => .imp
  | .pla => .imp
  | .plp => .imp
  | .aslAcc => .acc
  | .aslZp _ => .zp
  | .aslZpx _ => .zpx
  | .aslAbs _ => .abs
  | .aslAbx _ => .abx
  | .lsrAcc => .acc
  | .lsrZp _ => .zp
  | .lsrZpx _ => .zpx
  | .lsrAbs _ => .abs
  | .lsrAbx _ => .abx

/-- The number of operand bytes of a mode (30_encoding.md R60). -/
def Mode.operandBytes : Mode → Nat
  | .imp | .acc => 0
  | .imm | .zp | .zpx | .zpy | .izx | .izy | .rel => 1
  | .abs | .abx | .aby | .ind => 2

/-- The length of an instruction in bytes, a function of its mode alone (30_encoding.md R60). -/
def Instr.length (i : Instr) : Nat := 1 + i.mode.operandBytes

/-- The operand as a number: the operand byte, the 16-bit operand, or 0 where there is none. -/
def Instr.operand : Instr → Nat
  | .ldaImm v => v.toNat
  | .ldaZp b => b.toNat
  | .ldaZpx b => b.toNat
  | .ldaAbs w => w.toNat
  | .ldaAbx w => w.toNat
  | .ldaAby w => w.toNat
  | .ldaIzx b => b.toNat
  | .ldaIzy b => b.toNat
  | .ldxImm v => v.toNat
  | .ldxZp b => b.toNat
  | .ldxZpy b => b.toNat
  | .ldxAbs w => w.toNat
  | .ldxAby w => w.toNat
  | .ldyImm v => v.toNat
  | .ldyZp b => b.toNat
  | .ldyZpx b => b.toNat
  | .ldyAbs w => w.toNat
  | .ldyAbx w => w.toNat
  | .staZp b => b.toNat
  | .staZpx b => b.toNat
  | .staAbs w => w.toNat
  | .staAbx w => w.toNat
  | .staAby w => w.toNat
  | .staIzx b => b.toNat
  | .staIzy b => b.toNat
  | .stxZp b => b.toNat
  | .stxZpy b => b.toNat
  | .stxAbs w => w.toNat
  | .styZp b => b.toNat
  | .styZpx b => b.toNat
  | .styAbs w => w.toNat
  | .tax => 0
  | .txa => 0
  | .tay => 0
  | .tya => 0
  | .tsx => 0
  | .txs => 0
  | .pha => 0
  | .php => 0
  | .pla => 0
  | .plp => 0
  | .aslAcc => 0
  | .aslZp b => b.toNat
  | .aslZpx b => b.toNat
  | .aslAbs w => w.toNat
  | .aslAbx w => w.toNat
  | .lsrAcc => 0
  | .lsrZp b => b.toNat
  | .lsrZpx b => b.toNat
  | .lsrAbs w => w.toNat
  | .lsrAbx w => w.toNat

/-- One line of assembly in the conventional form (30_encoding.md R70, R71): a mnemonic, a mode and the operand as
written, before anything has checked that they go together. -/
structure AsmLine where
  mnemonic : Mnemonic
  mode     : Mode
  operand  : Nat
  deriving DecidableEq, Repr

/-- The line an instruction is written as. -/
def Instr.line (i : Instr) : AsmLine := ⟨i.mnemonic, i.mode, i.operand⟩

/-- The mnemonic's three capital letters. -/
def Mnemonic.text : Mnemonic → String
  | .lda => "LDA"
  | .ldx => "LDX"
  | .ldy => "LDY"
  | .sta => "STA"
  | .stx => "STX"
  | .sty => "STY"
  | .tax => "TAX"
  | .txa => "TXA"
  | .tay => "TAY"
  | .tya => "TYA"
  | .tsx => "TSX"
  | .txs => "TXS"
  | .pha => "PHA"
  | .php => "PHP"
  | .pla => "PLA"
  | .plp => "PLP"
  | .asl => "ASL"
  | .lsr => "LSR"

/-- The hexadecimal digits of a number, `width` of them, the most significant first. -/
def hexDigits : Nat → Nat → List Char
  | 0, _ => []
  | width + 1, n => hexDigits width (n / 16) ++ [Nat.digitChar (n % 16) |>.toUpper]

/-- The operand as written (30_encoding.md R70): `$nn` for a byte and `$nnnn` for an address, inside the mode's
punctuation. A relative operand is written as the byte itself. -/
def AsmLine.operandText (l : AsmLine) : String :=
  let byte := "$" ++ String.ofList (hexDigits 2 l.operand)
  let word := "$" ++ String.ofList (hexDigits 4 l.operand)
  match l.mode with
  | .imp => ""
  | .acc => " A"
  | .imm => " #" ++ byte
  | .zp => " " ++ byte
  | .zpx => " " ++ byte ++ ",X"
  | .zpy => " " ++ byte ++ ",Y"
  | .abs => " " ++ word
  | .abx => " " ++ word ++ ",X"
  | .aby => " " ++ word ++ ",Y"
  | .ind => " (" ++ word ++ ")"
  | .izx => " (" ++ byte ++ ",X)"
  | .izy => " (" ++ byte ++ "),Y"
  | .rel => " " ++ byte

/-- A line of assembly as text (30_encoding.md R70). -/
def AsmLine.text (l : AsmLine) : String := l.mnemonic.text ++ l.operandText

end Sys2Proof
end

