-- ==== Sys2Proof/WellFormed.lean ====
section
/-! DEFINITION. Which lines of assembly are instructions of this hardware: the mnemonic has that mode (30_encoding.md
R65), and the operand fits the mode's operand bytes (R60, R61). Every Instr is well formed, because its constructor
fixes the variant and its operand types fix the range (R69: operand bytes have no illegal values). -/

namespace Sys2Proof

/-- The mode variants of each mnemonic (30_encoding.md R65). -/
def Mnemonic.modes : Mnemonic → List Mode
  | .lda => [.imm, .zp, .zpx, .abs, .abx, .aby, .izx, .izy]
  | .ldx => [.imm, .zp, .zpy, .abs, .aby]
  | .ldy => [.imm, .zp, .zpx, .abs, .abx]
  | .sta => [.zp, .zpx, .abs, .abx, .aby, .izx, .izy]
  | .stx => [.zp, .zpy, .abs]
  | .sty => [.zp, .zpx, .abs]
  | .asl | .lsr => [.acc, .zp, .zpx, .abs, .abx]
  | .tax | .txa | .tay | .tya | .tsx | .txs | .pha | .php | .pla | .plp => [.imp]

/-- Check 1: the hardware has this mnemonic in this mode. -/
def AsmLine.variantExists (l : AsmLine) : Bool := l.mnemonic.modes.contains l.mode

/-- Check 2: the operand is a number of the mode's operand bytes; a mode with none has operand 0. -/
def AsmLine.operandFits (l : AsmLine) : Bool := l.operand < 256 ^ l.mode.operandBytes

/-- A line of assembly is an instruction of this hardware. -/
def AsmLine.wellFormed (l : AsmLine) : Bool := l.variantExists && l.operandFits

/-- An instruction is well formed when the line it is written as is. -/
def Instr.wellFormed (i : Instr) : Bool := i.line.wellFormed

end Sys2Proof
end

