-- ==== Sys2Proof/Decode.lean ====
section
/-! DEFINITION. The decoder (30_encoding.md R61 to R69): the opcode byte alone selects a row of the static table, the row's
format says how many operand bytes follow, and a byte with no row is rejected by name. The encoder stands after it, and
after that the assembler of R70, R71. The opcode bytes themselves are the spec's from general knowledge (D1; log 10). -/

namespace Sys2Proof

/-- `lo(a)` = `a[7:0]` (00_scope.md R5). -/
def lo (w : Addr) : Byte := BitVec.ofNat 8 w.toNat

/-- `hi(a)` = `a[15:8]` (00_scope.md R5). -/
def hi (w : Addr) : Byte := BitVec.ofNat 8 (w.toNat / 256)

/-- `{h, l}` = h·256 + l (00_scope.md R5). -/
def concat (h l : Byte) : Addr := BitVec.ofNat 16 (h.toNat * 256 + l.toNat)

/-- The formats F1, F2, F3 (30_encoding.md R61): no operand byte, one, or two; with the instruction each builds. -/
inductive Format where
  | f1 (i : Instr)
  | f2 (build : Byte → Instr)
  | f3 (build : Addr → Instr)

/-- The load rows of the opcode map (30_encoding.md R66; R111 to R128). -/
def loadRows : List (Byte × Format) :=
  [(0xA9, .f2 .ldaImm), (0xA5, .f2 .ldaZp), (0xB5, .f2 .ldaZpx),
   (0xAD, .f3 .ldaAbs), (0xBD, .f3 .ldaAbx), (0xB9, .f3 .ldaAby),
   (0xA1, .f2 .ldaIzx), (0xB1, .f2 .ldaIzy), (0xA2, .f2 .ldxImm),
   (0xA6, .f2 .ldxZp), (0xB6, .f2 .ldxZpy), (0xAE, .f3 .ldxAbs),
   (0xBE, .f3 .ldxAby), (0xA0, .f2 .ldyImm), (0xA4, .f2 .ldyZp),
   (0xB4, .f2 .ldyZpx), (0xAC, .f3 .ldyAbs), (0xBC, .f3 .ldyAbx)]

/-- The store rows of the opcode map (30_encoding.md R66; R131 to R143). -/
def storeRows : List (Byte × Format) :=
  [(0x85, .f2 .staZp), (0x95, .f2 .staZpx), (0x8D, .f3 .staAbs),
   (0x9D, .f3 .staAbx), (0x99, .f3 .staAby), (0x81, .f2 .staIzx),
   (0x91, .f2 .staIzy), (0x86, .f2 .stxZp), (0x96, .f2 .stxZpy),
   (0x8E, .f3 .stxAbs), (0x84, .f2 .styZp), (0x94, .f2 .styZpx),
   (0x8C, .f3 .styAbs)]

/-- The transfer rows of the opcode map (30_encoding.md R66; R151 to R156). -/
def transferRows : List (Byte × Format) :=
  [(0xAA, .f1 .tax), (0x8A, .f1 .txa), (0xA8, .f1 .tay),
   (0x98, .f1 .tya), (0xBA, .f1 .tsx), (0x9A, .f1 .txs)]

/-- The stack rows of the opcode map (30_encoding.md R66; R162 to R165). -/
def stackRows : List (Byte × Format) :=
  [(0x48, .f1 .pha), (0x08, .f1 .php), (0x68, .f1 .pla),
   (0x28, .f1 .plp)]

/-- The shift rows of the opcode map (30_encoding.md R66; R172 to R181). -/
def shiftRows : List (Byte × Format) :=
  [(0x0A, .f1 .aslAcc), (0x06, .f2 .aslZp), (0x16, .f2 .aslZpx),
   (0x0E, .f3 .aslAbs), (0x1E, .f3 .aslAbx), (0x4A, .f1 .lsrAcc),
   (0x46, .f2 .lsrZp), (0x56, .f2 .lsrZpx), (0x4E, .f3 .lsrAbs),
   (0x5E, .f3 .lsrAbx)]

/-- The 51 populated rows of the opcode map (30_encoding.md R66; 10_state.md R24). -/
def opcodeRows : List (Byte × Format) := loadRows ++ storeRows ++ transferRows ++ stackRows ++ shiftRows

/-- DECODE: the row an opcode byte selects, or none for the 205 illegal bytes (40_step_and_addressing.md R83). -/
def lookupOpcode (b : Byte) : Option Format := opcodeRows.lookup b

/-- Why a list of bytes is no instruction: its first byte has no row (30_encoding.md R67), or it ends too soon. -/
inductive DecodeError where
  | illegalOpcode (b : Byte)
  | endOfBytes
  deriving DecidableEq, Repr

/-- The instruction a format reads from the bytes after the opcode, and the bytes left over (30_encoding.md R61, R62). -/
def Format.read : Format → List Byte → Except DecodeError (Instr × List Byte)
  | .f1 i, rest => .ok (i, rest)
  | .f2 build, b :: rest => .ok (build b, rest)
  | .f3 build, l :: h :: rest => .ok (build (concat h l), rest)
  | .f2 _, [] | .f3 _, [] | .f3 _, [_] => .error .endOfBytes

/-- The instruction at the head of a list of bytes and the bytes after it (30_encoding.md R63). An illegal opcode byte is
rejected whatever follows it, and however little. -/
def decode : List Byte → Except DecodeError (Instr × List Byte)
  | [] => .error .endOfBytes
  | b :: rest =>
    match lookupOpcode b with
    | none => .error (.illegalOpcode b)
    | some f => f.read rest

/-- The opcode byte of an instruction (30_encoding.md R66). -/
def Instr.opcode : Instr → Byte
  | .ldaImm _ => 0xA9
  | .ldaZp _ => 0xA5
  | .ldaZpx _ => 0xB5
  | .ldaAbs _ => 0xAD
  | .ldaAbx _ => 0xBD
  | .ldaAby _ => 0xB9
  | .ldaIzx _ => 0xA1
  | .ldaIzy _ => 0xB1
  | .ldxImm _ => 0xA2
  | .ldxZp _ => 0xA6
  | .ldxZpy _ => 0xB6
  | .ldxAbs _ => 0xAE
  | .ldxAby _ => 0xBE
  | .ldyImm _ => 0xA0
  | .ldyZp _ => 0xA4
  | .ldyZpx _ => 0xB4
  | .ldyAbs _ => 0xAC
  | .ldyAbx _ => 0xBC
  | .staZp _ => 0x85
  | .staZpx _ => 0x95
  | .staAbs _ => 0x8D
  | .staAbx _ => 0x9D
  | .staAby _ => 0x99
  | .staIzx _ => 0x81
  | .staIzy _ => 0x91
  | .stxZp _ => 0x86
  | .stxZpy _ => 0x96
  | .stxAbs _ => 0x8E
  | .styZp _ => 0x84
  | .styZpx _ => 0x94
  | .styAbs _ => 0x8C
  | .tax => 0xAA
  | .txa => 0x8A
  | .tay => 0xA8
  | .tya => 0x98
  | .tsx => 0xBA
  | .txs => 0x9A
  | .pha => 0x48
  | .php => 0x08
  | .pla => 0x68
  | .plp => 0x28
  | .aslAcc => 0x0A
  | .aslZp _ => 0x06
  | .aslZpx _ => 0x16
  | .aslAbs _ => 0x0E
  | .aslAbx _ => 0x1E
  | .lsrAcc => 0x4A
  | .lsrZp _ => 0x46
  | .lsrZpx _ => 0x56
  | .lsrAbs _ => 0x4E
  | .lsrAbx _ => 0x5E

/-- The operand bytes of an instruction, the low byte of a 16-bit operand first (30_encoding.md R61). -/
def Instr.operandEncoding : Instr → List Byte
  | .ldaImm v => [v]
  | .ldaZp b => [b]
  | .ldaZpx b => [b]
  | .ldaAbs w => [lo w, hi w]
  | .ldaAbx w => [lo w, hi w]
  | .ldaAby w => [lo w, hi w]
  | .ldaIzx b => [b]
  | .ldaIzy b => [b]
  | .ldxImm v => [v]
  | .ldxZp b => [b]
  | .ldxZpy b => [b]
  | .ldxAbs w => [lo w, hi w]
  | .ldxAby w => [lo w, hi w]
  | .ldyImm v => [v]
  | .ldyZp b => [b]
  | .ldyZpx b => [b]
  | .ldyAbs w => [lo w, hi w]
  | .ldyAbx w => [lo w, hi w]
  | .staZp b => [b]
  | .staZpx b => [b]
  | .staAbs w => [lo w, hi w]
  | .staAbx w => [lo w, hi w]
  | .staAby w => [lo w, hi w]
  | .staIzx b => [b]
  | .staIzy b => [b]
  | .stxZp b => [b]
  | .stxZpy b => [b]
  | .stxAbs w => [lo w, hi w]
  | .styZp b => [b]
  | .styZpx b => [b]
  | .styAbs w => [lo w, hi w]
  | .tax => []
  | .txa => []
  | .tay => []
  | .tya => []
  | .tsx => []
  | .txs => []
  | .pha => []
  | .php => []
  | .pla => []
  | .plp => []
  | .aslAcc => []
  | .aslZp b => [b]
  | .aslZpx b => [b]
  | .aslAbs w => [lo w, hi w]
  | .aslAbx w => [lo w, hi w]
  | .lsrAcc => []
  | .lsrZp b => [b]
  | .lsrZpx b => [b]
  | .lsrAbs w => [lo w, hi w]
  | .lsrAbx w => [lo w, hi w]

/-- The bytes of an instruction, at ascending addresses (30_encoding.md R61). -/
def encode (i : Instr) : List Byte := i.opcode :: i.operandEncoding

/-- The instruction a format builds from an operand as written. -/
def Format.build : Format → Nat → Instr
  | .f1 i, _ => i
  | .f2 build, n => build (BitVec.ofNat 8 n)
  | .f3 build, n => build (BitVec.ofNat 16 n)

/-- The instruction of one well-formed line of assembly (30_encoding.md R70, R71): the row of the map with the line's
mnemonic and mode, and none where the hardware has no such variant or the operand does not fit. -/
def assemble (l : AsmLine) : Option Instr :=
  if l.wellFormed then
    (opcodeRows.map (fun row => row.2.build l.operand)).find? (fun i => i.mnemonic == l.mnemonic && i.mode == l.mode)
  else none

/-- The first `n` bytes of a number, the least significant first: bytes of a table word at ascending addresses. -/
def wordBytes : Nat → Nat → List Byte
  | 0, _ => []
  | n + 1, w => BitVec.ofNat 8 w :: wordBytes n (w / 256)

/-- The bytes of a table word of `nbits` bits: bit 0 is the least significant bit of the opcode byte, and every bit above
`nbits`, up to the longest instruction's three bytes, is 0. -/
def tableBytes (nbits w : Nat) : List Byte := wordBytes 3 (w % 2 ^ nbits)

/-- The instruction the decoder reads from a word numbered as spec/opcode_table.json numbers it. -/
def decodeTableWord (nbits w : Nat) : Option Instr :=
  match decode (tableBytes nbits w) with
  | .ok (i, _) => some i
  | .error _ => none

end Sys2Proof
end

