-- ==== Sys2Proof/Config.lean ====
section
/-! DEFINITION. The machine's parameters (00_scope.md R4) as one plain record, the platform among them, and the two free
functions that stand for a device whose behaviour nothing gives (20_memory.md R41, R47). The record is a constant field
of State, so that a statement about every state is a statement about every value of every parameter (log 4). -/

namespace Sys2Proof

/-- `RESET_A` … `RESET_P`: the register values after power-on, which the spec leaves unspecified (10_state.md R33).
The zeros of the default are log 1: DESIGN CHOICE, unsafe. Bit 5 of `p` is forced to 1 at power-on, whatever is here. -/
structure ResetValues where
  a  : Byte := 0
  x  : Byte := 0
  y  : Byte := 0
  pc : Addr := 0
  sp : Byte := 0
  p  : Byte := 0
  deriving DecidableEq, Repr

/-- What the platform does with a read in a window of addresses (20_memory.md R41; log 5). -/
inductive ReadService where
  /-- A plain cell, at the address itself. -/
  | ram
  /-- A plain cell that answers at many addresses: `cell` and the `period` cells from it on, over and over from the
  address `first` on; a period of 0 maps the window one to one, from `first` to `cell`. -/
  | mirror (first cell : Addr) (period : Nat)
  /-- The same byte at every address, such as an open bus or a strapped port. -/
  | fixed (v : Byte)
  /-- A device whose answers the platform lists. -/
  | listed
  /-- A device whose behaviour nothing gives: a free answer. -/
  | device
  /-- No hardware is there (60_exceptions.md R202). -/
  | unserviceable
  deriving DecidableEq, Repr

/-- What the platform does with a write to a window of addresses (20_memory.md R41; 42_store.md R130; log 5). -/
inductive WriteService where
  /-- A plain cell, at the address itself. -/
  | ram
  /-- A plain cell that answers at many addresses, as for a read. -/
  | mirror (first cell : Addr) (period : Nat)
  /-- Serviced without effect: ROM. -/
  | ignored
  /-- A device whose answers the platform lists. -/
  | listed
  /-- A device whose behaviour nothing gives: a free answer. -/
  | device
  /-- No hardware is there (60_exceptions.md R202). -/
  | unserviceable
  deriving DecidableEq, Repr

/-- A window of addresses `base ≤ a < base + size` that is not plain RAM for reads, for writes or for both. -/
structure Region where
  base    : Nat
  size    : Nat
  onRead  : ReadService
  onWrite : WriteService
  deriving DecidableEq, Repr

/-- The platform (20_memory.md R41) as plain data: the windows that differ from flat RAM, the first that holds an
address deciding for it, and what its listed devices answer. `reads` gives, for their state and the address, the byte and
their next state; `writes`, for their state, the address and the byte, their next state; `none`, and an access without an
entry, are `Unserviceable` (log 5). -/
structure Platform where
  windows : List Region := []
  reads   : List ((Nat × Addr) × Option (Byte × Nat)) := []
  writes  : List ((Nat × Addr × Byte) × Option Nat) := []
  deriving DecidableEq, Repr

/-- The parameters of 00_scope.md R4. `baseCycles` holds the entries of `BASE_CYCLES` that differ from the table of
70_reset_and_hazards.md R226, by opcode byte. The defaults are the spec's; the default platform is flat RAM. -/
structure Config where
  reset           : ResetValues := {}
  phpPushOrMask   : Byte := 0x00
  txsUpdatesNZ    : Bool := false
  penaltyOnWrites : Bool := false
  baseCycles      : List (Byte × Nat) := []
  platform        : Platform := {}
  deriving DecidableEq, Repr

/-- The machine with every parameter at its default: flat RAM, R226's cycle table, no flag written by TXS. -/
def Config.default : Config := {}

/-- FREE VALUE (log 5): the answer of a device window to a read, from their own state and the address: the byte
and their next state, or none for `Unserviceable` (20_memory.md R41). It has no body: no statement can know it. -/
opaque Config.deviceRead : Nat → Addr → Option (Byte × Nat)

/-- FREE VALUE (log 5): the devices' next state after a write to a device window, or none for `Unserviceable` (20_memory.md R41). -/
opaque Config.deviceWrite : Nat → Addr → Byte → Option Nat

end Sys2Proof
end

