-- ==== Sys2Proof/Machine/State.lean ====
section
/-! DEFINITION. The state of the machine as plain data (10_state.md; 20_memory.md R41; 60_exceptions.md R200 to R203),
the two fatal conditions, power-on and reset. -/

namespace Sys2Proof.Machine

/-- One byte access at the memory interface (20_memory.md R41, R44): its direction, its address and, for a write, the
value (60_exceptions.md R202 records exactly these). -/
inductive Access where
  | read (a : Addr)
  | write (a : Addr) (v : Byte)
  deriving DecidableEq, Repr

/-- The two fatal conditions and what each records (60_exceptions.md R200 to R202). -/
inductive HaltCause where
  | illegalOpcode (opcode : Byte) (a0 : Addr)
  | memoryUnserviceable (access : Access)
  deriving DecidableEq, Repr

/-- The state of the machine. `a x y pc sp p` are the core's registers (10_state.md R10 to R16), `halted` its latch
with the recorded cause (R22). `mem` and `device` are the memory collaborator's (20_memory.md R41): the plain cells in
canonical form, and the state of what answers in its device windows. `config` never changes (log 4). `cycles` and
`accesses` are outputs of the latest step, which no rule reads (logs 7 and 8). -/
structure State where
  a        : Byte
  x        : Byte
  y        : Byte
  pc       : Addr
  sp       : Byte
  p        : Byte
  halted   : Option HaltCause
  mem      : List Host.Cell
  device   : Nat
  config   : Config
  cycles   : Option Nat
  accesses : List Access
  deriving DecidableEq, Repr

/-- The two ways the machine stops (60_exceptions.md R200), each with the state of the halted core, which the host's
getters still read (R203, R204). -/
inductive Fault where
  /-- Raised by DECODE on one of the 205 bytes without a row (R201), and again by every step of a core that this has
  halted (R204). Safe: the spec halts there too, and a halted run is never a completed one (R203). -/
  | illegalOpcode (opcode : Byte) (a0 : Addr) (atHalt : State)
  /-- Raised by any byte access that the platform cannot service (R202), and again by every step of a core that this
  has halted. Safe, for the same reason; with the default platform it never occurs. -/
  | memoryUnserviceable (access : Access) (atHalt : State)
  deriving DecidableEq, Repr

/-- Reasons to give an instruction no meaning. No meaning of this model uses one. -/
inductive Refusal where
  /-- Raised by exec for an instruction that has no meaning yet, by its mnemonic. Safe. No arm raises it now. -/
  | notModelled (mnemonic : String)
  deriving DecidableEq, Repr

/-- Power-on (70_reset_and_hazards.md R220; 10_state.md R33) of a core with the parameters `c` on a platform whose cells
hold `mem` and whose devices are in the state `device`: every register at its `RESET_*` value, Unused forced to 1, not
halted, and no access to memory. -/
def State.powerOn (c : Config) (mem : List Host.Cell) (device : Nat) : State where
  a := c.reset.a
  x := c.reset.x
  y := c.reset.y
  pc := c.reset.pc
  sp := c.reset.sp
  p := c.reset.p ||| 0x20
  halted := none
  mem := mem
  device := device
  config := c
  cycles := none
  accesses := []

/-- The default machine right after power-on, its memory with nothing listed (logs 1 and 2). -/
def State.reset : State := .powerOn Config.default [] 0

end Sys2Proof.Machine
end

