-- ==== Sys2Proof/Machine/Flags.lean ====
section
/-! DEFINITION. The status register P (10_state.md R15 to R19): its eight flags, the masked accessors, the combined
zero/negative update and the whole-register read and write that keep Unused at 1. -/

namespace Sys2Proof.Machine

/-- The eight flags in the order of 10_state.md R16, bit 0 first. -/
inductive Flag where
  | carry | zero | interruptDisable | decimal | brk | unused | overflow | negative
  deriving DecidableEq, Repr

/-- The bit number of a flag (10_state.md R16; D4, log 11). -/
def Flag.bit : Flag → Nat
  | .carry => 0
  | .zero => 1
  | .interruptDisable => 2
  | .decimal => 3
  | .brk => 4
  | .unused => 5
  | .overflow => 6
  | .negative => 7

/-- The mask of a flag (10_state.md R16). -/
def Flag.mask (f : Flag) : Byte := BitVec.ofNat 8 (2 ^ f.bit)

/-- `get_flag` (10_state.md R17), on a status byte. -/
def getFlag (f : Flag) (p : Byte) : Bool := (p &&& f.mask) != 0

/-- `set_flag` (10_state.md R17), on a status byte. Clearing Unused has no effect (R17, R19; 90_conflicts.md C9). -/
def setFlag (f : Flag) (v : Bool) (p : Byte) : Byte :=
  match v with
  | true => p ||| f.mask
  | false => if f = .unused then p else p &&& (0xFF - f.mask)

/-- `SetZN(v)` (10_state.md R18), on a status byte: Zero from `v = 0`, Negative from bit 7 of `v`. -/
def setZNByte (v : Byte) (p : Byte) : Byte :=
  setFlag .negative (v.getLsbD 7) (setFlag .zero (v == 0) p)

/-- A whole-register read of P: bit 5 reads as 1 (10_state.md R19). -/
def State.status (s : State) : Byte := s.p ||| Flag.unused.mask

/-- A whole-register write of P: the byte offered with bit 5 forced to 1 (10_state.md R19). -/
def State.setStatus (s : State) (v : Byte) : State := { s with p := v ||| Flag.unused.mask }

/-- One flag of P. -/
def State.flag (s : State) (f : Flag) : Bool := getFlag f s.status

/-- `SetZN(v)` on the state: no other bit of P changes, and nothing else (10_state.md R18). -/
def State.setZN (s : State) (v : Byte) : State := { s with p := setZNByte v s.p }

/-- `P.C <- c`. -/
def State.setCarry (s : State) (c : Bool) : State := { s with p := setFlag .carry c s.p }

end Sys2Proof.Machine
end

