-- ==== Sys2Proof/Machine/Memory.lean ====
section
/-! DEFINITION. The plain cells of the memory collaborator (20_memory.md R40, R41) as a list of (address, byte) pairs in one
canonical form: addresses strictly rising and inside the 65536 cells, and no entry equal to what an unlisted cell reads
as. -/

namespace Sys2Proof.Machine

abbrev Memory := List Host.Cell

/-- What a cell that is not listed reads as. DESIGN CHOICE, unsafe (log 2): the spec leaves the contents of memory to the
platform (10_state.md R33). -/
def Memory.unlisted : Byte := 0x00

/-- The byte of one cell. -/
def Memory.read : Memory → Nat → Byte
  | [], _ => Memory.unlisted
  | (k, v) :: m, a => if k = a then v else Memory.read m a

/-- The list with the cell `a` set to `v`, in canonical form: in its place, or removed when `v` is what an unlisted cell
reads as. -/
def Memory.write : Memory → Nat → Byte → Memory
  | [], a, v => if v = Memory.unlisted then [] else [(a, v)]
  | (k, u) :: m, a, v =>
    if k < a then (k, u) :: Memory.write m a v
    else
      let rest := if k = a then m else (k, u) :: m
      if v = Memory.unlisted then rest else (a, v) :: rest

/-- The canonical form. -/
abbrev Memory.wf (m : Memory) : Prop :=
  m.Pairwise (fun c d => c.1 < d.1) ∧ ∀ c ∈ m, c.1 < 65536 ∧ c.2 ≠ Memory.unlisted

end Sys2Proof.Machine
end

