-- ==== Sys2Proof/Machine/Platform.lean ====
section
/-! DEFINITION. The platform that the configuration names (00_scope.md R4; 20_memory.md R41): which window an address
falls in, the cell it stands for, what a listed device answers, and the platform that two given functions make. -/

namespace Sys2Proof

/-- The answer of a listed device to a read, from its own state. -/
def Platform.read (p : Platform) (device : Nat) (a : Addr) : Option (Byte × Nat) :=
  (p.reads.lookup (device, a)).join

/-- The answer of a listed device to a write, from its own state. -/
def Platform.write (p : Platform) (device : Nat) (a : Addr) (v : Byte) : Option Nat :=
  (p.writes.lookup (device, a, v)).join

/-- Every address, and every byte. -/
def allAddrs : List Addr := (List.finRange 65536).map (BitVec.ofFin (w := 16))

def allBytes : List Byte := (List.finRange 256).map (BitVec.ofFin (w := 8))

/-- The platform of 20_memory.md R41 with the state space `M` of `k` states and the two functions as given: one window
over the whole address space, its answers listed. Its cells are in its own state. It is what shows that every platform
with finitely many states is a value of the parameter. -/
def Platform.ofFunctions (k : Nat) (read : Fin k → Addr → Option (Byte × Fin k))
    (write : Fin k → Addr → Byte → Option (Fin k)) : Platform where
  windows := [⟨0, 65536, .listed, .listed⟩]
  reads := (List.finRange k).flatMap fun (m : Fin k) => allAddrs.map fun a =>
    ((m.val, a), (read m a).map fun r => (r.1, r.2.val))
  writes := (List.finRange k).flatMap fun (m : Fin k) => allAddrs.flatMap fun a => allBytes.map fun v =>
    ((m.val, a, v), (write m a v).map Fin.val)

end Sys2Proof

namespace Sys2Proof.Machine

/-- The first window that holds an address decides what an access to it is; an address in no window is plain RAM. -/
def regionAt (rs : List Region) (a : Addr) : Option Region :=
  rs.find? (fun r => decide (r.base ≤ a.toNat ∧ a.toNat < r.base + r.size))

/-- What the platform does with a read of `a`. -/
def State.readService (s : State) (a : Addr) : ReadService :=
  match regionAt s.config.platform.windows a with
  | none => .ram
  | some r => r.onRead

/-- What the platform does with a write to `a`. -/
def State.writeService (s : State) (a : Addr) : WriteService :=
  match regionAt s.config.platform.windows a with
  | none => .ram
  | some r => r.onWrite

/-- The cell that an address of a mirror stands for. It is a plain cell: no window is looked up for it again. -/
def mirrorCell (first cell : Addr) (period : Nat) (a : Addr) : Addr :=
  cell + BitVec.ofNat 16 ((a - first).toNat % period)

/-- The only plain cell that a write to `a` can change: the one `a` stands for in a mirror, else the one at `a`. -/
def State.writeCell (s : State) (a : Addr) : Addr :=
  match s.writeService a with
  | .mirror first cell period => mirrorCell first cell period a
  | _ => a

end Sys2Proof.Machine
end

