-- ==== Sys2Proof/Machine/Ops.lean ====
section
/-! DEFINITION. The shared operations: the two fatal conditions and the entry into the halted state, the memory
interface, the fetch primitive, the general registers, the stack engine and the cycle count. An operation that can
raise a fatal condition answers `.ok` with what it gives and the state after it, or `.error` with the fault. -/

namespace Sys2Proof.Machine

/-- What a step, or the meaning of an instruction, answers. -/
abbrev Answer := Host.Outcome State Fault Refusal

/-- The result of an operation that can raise a fatal condition. -/
abbrev Res (α : Type) := Except Fault α

/-- The end of an instruction: the next state, or the fault that was raised. -/
def finish : Res State → Answer
  | .ok s => .next s
  | .error f => .fault f

/-! ## Fatal conditions (60_exceptions.md R200 to R204) -/

/-- The cause codes 1 and 2 (60_exceptions.md R200). -/
def HaltCause.code : HaltCause → Nat
  | .illegalOpcode _ _ => 1
  | .memoryUnserviceable _ => 2

/-- The fault that reports a cause, with the state of the core it stops. -/
def HaltCause.report (c : HaltCause) (s : State) : Fault :=
  match c with
  | .illegalOpcode opcode a0 => .illegalOpcode opcode a0 s
  | .memoryUnserviceable access => .memoryUnserviceable access s

/-- Entry into the halted state, which is this hardware's taking of an exception (60_exceptions.md R203): the latch is
set and records the cause; no register is saved or changed and no vector is read; the step ends in a fault. There is
no return from it (R207). -/
def raise (c : HaltCause) (s : State) : Fault := c.report { s with halted := some c }

/-! ## The memory interface (20_memory.md R41) -/

/-- The plain cell at an address, without an access. -/
def State.peek (s : State) (a : Addr) : Byte := Memory.read s.mem a.toNat

/-- The state with the plain cell at an address set, without an access. -/
def State.poke (s : State) (a : Addr) (v : Byte) : State := { s with mem := Memory.write s.mem a.toNat v }

/-- The platform has serviced one access (20_memory.md R42, R50; log 8). -/
def State.log (s : State) (e : Access) : State := { s with accesses := s.accesses ++ [e] }

/-- A read that a device answers: the byte and the device's next state, or `Unserviceable`. -/
def answerRead (a : Addr) (s : State) : Option (Byte × Nat) → Res (Byte × State)
  | some (v, d) => .ok (v, { s with device := d }.log (.read a))
  | none => .error (raise (.memoryUnserviceable (.read a)) s)

/-- A write that a device answers: the device's next state, or `Unserviceable`. -/
def answerWrite (a : Addr) (v : Byte) (s : State) : Option Nat → Res State
  | some d => .ok ({ s with device := d }.log (.write a v))
  | none => .error (raise (.memoryUnserviceable (.write a v)) s)

/-- `MemRead(a, 1)` (00_scope.md R7; 20_memory.md R41). -/
def memRead (a : Addr) (s : State) : Res (Byte × State) :=
  match s.readService a with
  | .ram => .ok (s.peek a, s.log (.read a))
  | .mirror first cell period => .ok (s.peek (mirrorCell first cell period a), s.log (.read a))
  | .fixed v => .ok (v, s.log (.read a))
  | .listed => answerRead a s (s.config.platform.read s.device a)
  | .device => answerRead a s (Config.deviceRead s.device a)
  | .unserviceable => answerRead a s none

/-- `MemWrite(a, 1, v)` (00_scope.md R7; 20_memory.md R41). The core issues every write, to ROM too; what becomes of it
is the platform's (42_store.md R130). -/
def memWrite (a : Addr) (v : Byte) (s : State) : Res State :=
  match s.writeService a with
  | .ram => .ok ((s.poke a v).log (.write a v))
  | .mirror first cell period => .ok ((s.poke (mirrorCell first cell period a) v).log (.write a v))
  | .ignored => .ok (s.log (.write a v))
  | .listed => answerWrite a v s (s.config.platform.write s.device a v)
  | .device => answerWrite a v s (Config.deviceWrite s.device a v)
  | .unserviceable => answerWrite a v s none

/-! ## Fetching (40_step_and_addressing.md R81, R82) -/

/-- `Fetch()`: the byte at PC, and PC advanced by one modulo 65536; PC stays where the read fails (R82). -/
def fetch8 (s : State) : Res (Byte × State) := do
  let (b, s) ← memRead s.pc s
  return (b, { s with pc := s.pc + 1 })

/-- Two operand bytes, the low byte first (20_memory.md R43). -/
def fetch16 (s : State) : Res (Addr × State) := do
  let (l, s) ← fetch8 s
  let (h, s) ← fetch8 s
  return (concat h l, s)

/-- The operand byte of IMM (40_step_and_addressing.md R92; 41_load.md R111, R119, R124): `Resolve_IMM` puts PC past it,
and then it is read, so that PC has advanced even where the read fails (60_exceptions.md R203; log 9). -/
def fetchImmediate (s : State) : Res (Byte × State) := memRead s.pc { s with pc := s.pc + 1 }

/-- The operand byte of a mode that has one: by `Fetch()` in every mode but IMM (40_step_and_addressing.md R82). -/
def fetchByteOperand (m : Mode) (s : State) : Res (Byte × State) := if m = .imm then fetchImmediate s else fetch8 s

/-- The operand bytes of a format, and the instruction they complete (30_encoding.md R61, R62). -/
def fetchOperand : Format → State → Res (Instr × State)
  | .f1 i, s => .ok (i, s)
  | .f2 build, s => do
    let (b, s) ← fetchByteOperand (build 0).mode s
    return (build b, s)
  | .f3 build, s => do
    let (w, s) ← fetch16 s
    return (build w, s)

/-- FETCH, DECODE and the reading of the operand bytes (40_step_and_addressing.md R80 to R83): an illegal opcode is
raised before any operand byte is read, with PC already past it (60_exceptions.md R201, R206). Every mode rule begins
with these operand reads, so they stand here once (log 9). -/
def fetchInstr (s : State) : Res (Instr × State) := do
  let a0 := s.pc
  let (opcode, s) ← fetch8 s
  match lookupOpcode opcode with
  | none => .error (raise (.illegalOpcode opcode a0) s)
  | some f => fetchOperand f s

/-! ## The general registers (10_state.md R10) -/

/-- The three general registers. -/
inductive Reg where
  | a | x | y
  deriving DecidableEq, Repr

def State.getReg (s : State) : Reg → Byte
  | .a => s.a
  | .x => s.x
  | .y => s.y

def State.setReg (s : State) (r : Reg) (v : Byte) : State :=
  match r with
  | .a => { s with a := v }
  | .x => { s with x := v }
  | .y => { s with y := v }

/-! ## The stack engine (44_stack.md R160, R161) -/

/-- The cell of page 1 that a value of SP designates: `0x0100 + SP` (10_state.md R14). -/
def stackAddr (sp : Byte) : Addr := BitVec.ofNat 16 (0x0100 + sp.toNat)

/-- `Push(v)`: write at SP, then decrement SP modulo 256; SP stays where the write fails. -/
def push (v : Byte) (s : State) : Res State := do
  let s ← memWrite (stackAddr s.sp) v s
  return { s with sp := s.sp - 1 }

/-- `Pull()`: increment SP modulo 256, then read at the new SP; where the read fails SP is already incremented. -/
def pull (s : State) : Res (Byte × State) :=
  let s := { s with sp := s.sp + 1 }
  memRead (stackAddr s.sp) s

/-! ## The cycle count (40_step_and_addressing.md R86) -/

/-- `BASE_CYCLES[opcode]`: the machine's own entry, or the entry `table` of 70_reset_and_hazards.md R226. -/
def State.baseCycles (s : State) (opcode : Byte) (table : Nat) : Nat :=
  (s.config.baseCycles.lookup opcode).getD table

/-- The page-cross cycle of a store or a shift: counted only with `PENALTY_ON_WRITES` (70_reset_and_hazards.md R227). -/
def State.writePenalty (s : State) (penalty : Nat) : Nat := if s.config.penaltyOnWrites then penalty else 0

/-- `cycles <- n`: the count the step returns. -/
def State.returns (s : State) (n : Nat) : State := { s with cycles := some n }

/-- The start of a step: no count returned and no access made yet (40_step_and_addressing.md R80). -/
def State.begin (s : State) : State := { s with cycles := none, accesses := [] }

/-- The state with bytes placed in the plain cells from an address on, modulo 65536. -/
def State.place (s : State) (a : Addr) : List Byte → State
  | [] => s
  | b :: bs => (s.poke a b).place (a + 1) bs

end Sys2Proof.Machine
end

