-- ==== Sys2Proof/Machine/Operands.lean ====
section
/-! DEFINITION. The addressing-mode resolver (40_step_and_addressing.md R90 to R104). Each function takes the operand that
the step has fetched and a state whose PC is past it, and gives the effective address, the page-cross penalty and the
state after the pointer reads. `resolve` at the end is the whole `Resolve_<MODE>()`, entered with PC at the first operand
byte. -/

namespace Sys2Proof.Machine

/-- What a mode rule gives: the effective address, the penalty (0 or 1, R84) and the state after its reads. -/
structure Resolved where
  ea      : Addr
  penalty : Nat
  state   : State
  deriving DecidableEq, Repr

/-- `zext_16(b)` (00_scope.md R5). -/
def zext16 (b : Byte) : Addr := BitVec.ofNat 16 b.toNat

/-- `sext_16(b)`: b below 128, else b + 0xFF00 (00_scope.md R5). -/
def sext16 (b : Byte) : Addr := if b.toNat < 128 then zext16 b else BitVec.ofNat 16 (b.toNat + 0xFF00)

/-- The page-cross penalty: 1 when the high byte changes (R103). -/
def crossPenalty (base target : Addr) : Nat := if hi base = hi target then 0 else 1

/-- `base + index` modulo 65536 with an unsigned index, and its penalty (R100, R101). -/
def indexed (base : Addr) (index : Byte) (s : State) : Resolved :=
  let ea := base + zext16 index
  ⟨ea, crossPenalty base ea, s⟩

/-- A 16-bit pointer in page 0: low byte at `p`, high byte at `p + 1` modulo 256 (R98, R99). -/
def zeroPagePointer (p : Byte) (s : State) : Res (Addr × State) := do
  let (l, s) ← memRead (zext16 p) s
  let (h, s) ← memRead (zext16 (p + 1)) s
  return (concat h l, s)

/-- ZP (R93). -/
def resolveZp (b : Byte) (s : State) : Res Resolved := .ok ⟨zext16 b, 0, s⟩

/-- ZPX (R94): the sum wraps within page 0. -/
def resolveZpx (b : Byte) (s : State) : Res Resolved := .ok ⟨zext16 (b + s.x), 0, s⟩

/-- ZPY (R95). -/
def resolveZpy (b : Byte) (s : State) : Res Resolved := .ok ⟨zext16 (b + s.y), 0, s⟩

/-- ABS (R96). -/
def resolveAbs (w : Addr) (s : State) : Res Resolved := .ok ⟨w, 0, s⟩

/-- ABX (R100). -/
def resolveAbx (w : Addr) (s : State) : Res Resolved := .ok (indexed w s.x s)

/-- ABY (R101). -/
def resolveAby (w : Addr) (s : State) : Res Resolved := .ok (indexed w s.y s)

/-- IZX (R98): X is added to the operand modulo 256, and the pointer lies in page 0. -/
def resolveIzx (b : Byte) (s : State) : Res Resolved := do
  let (ptr, s) ← zeroPagePointer (b + s.x) s
  return ⟨ptr, 0, s⟩

/-- IZY (R99): the pointer lies in page 0 and wraps there (D10, log 15), and Y is added to it modulo 65536. -/
def resolveIzy (b : Byte) (s : State) : Res Resolved := do
  let (base, s) ← zeroPagePointer b s
  return indexed base s.y s

/-- IND (R97): the pointer's high byte is not incremented for the second read. -/
def resolveInd (w : Addr) (s : State) : Res Resolved := do
  let (tl, s) ← memRead w s
  let (th, s) ← memRead (concat (hi w) (lo w + 1)) s
  return ⟨concat th tl, 0, s⟩

/-- REL (R102): the signed offset is added to the PC past the operand, whose page the penalty compares with (D17). PC
is not written. -/
def resolveRel (b : Byte) (s : State) : Res Resolved :=
  let target := s.pc + sext16 b
  .ok ⟨target, crossPenalty s.pc target, s⟩

/-- IMM (R92): the address of the operand byte, and PC past it; the byte itself is read by the instruction. -/
def resolveImm (s : State) : Res Resolved := .ok ⟨s.pc, 0, { s with pc := s.pc + 1 }⟩

/-- A mode with one operand byte, entered with PC at it. -/
def resolveFetch8 (f : Byte → State → Res Resolved) (s : State) : Res (Option Resolved) := do
  let (b, s) ← fetch8 s
  let r ← f b s
  return some r

/-- A mode with two operand bytes, entered with PC at the first. -/
def resolveFetch16 (f : Addr → State → Res Resolved) (s : State) : Res (Option Resolved) := do
  let (w, s) ← fetch16 s
  let r ← f w s
  return some r

/-- `Resolve_<MODE>()` for the 13 modes, entered with PC at the first operand byte (R90 to R102). IMP and ACC read
nothing and have no effective address (R90, R91). No step uses IND and REL (R104). -/
def resolve (m : Mode) (s : State) : Res (Option Resolved) :=
  match m with
  | .imp | .acc => .ok none
  | .imm => (resolveImm s).map some
  | .zp => resolveFetch8 resolveZp s
  | .zpx => resolveFetch8 resolveZpx s
  | .zpy => resolveFetch8 resolveZpy s
  | .abs => resolveFetch16 resolveAbs s
  | .abx => resolveFetch16 resolveAbx s
  | .aby => resolveFetch16 resolveAby s
  | .ind => resolveFetch16 resolveInd s
  | .izx => resolveFetch8 resolveIzx s
  | .izy => resolveFetch8 resolveIzy s
  | .rel => resolveFetch8 resolveRel s

end Sys2Proof.Machine
end

