-- ==== Sys2Proof/Machine/Load.lean ====
section
/-! DEFINITION. LDA, LDX, LDY (41_load.md R110 to R128). -/

namespace Sys2Proof.Machine

/-- A load into `r` (R110): one data read, the register, Z and N from the value, and the cycle count with the page-cross
penalty, which is 0 but in ABX, ABY and IZY. -/
def load (r : Reg) (e : Res Resolved) (base : Nat) : Answer := finish do
  let m ← e
  let (v, s) ← memRead m.ea m.state
  return ((s.setReg r v).setZN v).returns (base + m.penalty)

/-- An immediate load into `r` (R92, R110): the data read is the fetch of the operand byte `v`, which the step has made. -/
def loadImm (r : Reg) (v : Byte) (base : Nat) (s : State) : Answer :=
  .next (((s.setReg r v).setZN v).returns base)

/-- LDA #$nn (R111). -/
def execLdaImm (v : Byte) (s : State) : Answer := loadImm .a v (s.baseCycles 0xA9 2) s

/-- LDA $nn (R112). -/
def execLdaZp (b : Byte) (s : State) : Answer :=
  load .a (resolveZp b s) (s.baseCycles 0xA5 3)

/-- LDA $nn,X (R113). -/
def execLdaZpx (b : Byte) (s : State) : Answer :=
  load .a (resolveZpx b s) (s.baseCycles 0xB5 4)

/-- LDA $nnnn (R114). -/
def execLdaAbs (w : Addr) (s : State) : Answer :=
  load .a (resolveAbs w s) (s.baseCycles 0xAD 4)

/-- LDA $nnnn,X (R115). -/
def execLdaAbx (w : Addr) (s : State) : Answer :=
  load .a (resolveAbx w s) (s.baseCycles 0xBD 4)

/-- LDA $nnnn,Y (R116). -/
def execLdaAby (w : Addr) (s : State) : Answer :=
  load .a (resolveAby w s) (s.baseCycles 0xB9 4)

/-- LDA ($nn,X) (R117). -/
def execLdaIzx (b : Byte) (s : State) : Answer :=
  load .a (resolveIzx b s) (s.baseCycles 0xA1 6)

/-- LDA ($nn),Y (R118). -/
def execLdaIzy (b : Byte) (s : State) : Answer :=
  load .a (resolveIzy b s) (s.baseCycles 0xB1 5)

/-- LDX #$nn (R119). -/
def execLdxImm (v : Byte) (s : State) : Answer := loadImm .x v (s.baseCycles 0xA2 2) s

/-- LDX $nn (R120). -/
def execLdxZp (b : Byte) (s : State) : Answer :=
  load .x (resolveZp b s) (s.baseCycles 0xA6 3)

/-- LDX $nn,Y (R121). -/
def execLdxZpy (b : Byte) (s : State) : Answer :=
  load .x (resolveZpy b s) (s.baseCycles 0xB6 4)

/-- LDX $nnnn (R122). -/
def execLdxAbs (w : Addr) (s : State) : Answer :=
  load .x (resolveAbs w s) (s.baseCycles 0xAE 4)

/-- LDX $nnnn,Y (R123). -/
def execLdxAby (w : Addr) (s : State) : Answer :=
  load .x (resolveAby w s) (s.baseCycles 0xBE 4)

/-- LDY #$nn (R124). -/
def execLdyImm (v : Byte) (s : State) : Answer := loadImm .y v (s.baseCycles 0xA0 2) s

/-- LDY $nn (R125). -/
def execLdyZp (b : Byte) (s : State) : Answer :=
  load .y (resolveZp b s) (s.baseCycles 0xA4 3)

/-- LDY $nn,X (R126). -/
def execLdyZpx (b : Byte) (s : State) : Answer :=
  load .y (resolveZpx b s) (s.baseCycles 0xB4 4)

/-- LDY $nnnn (R127). -/
def execLdyAbs (w : Addr) (s : State) : Answer :=
  load .y (resolveAbs w s) (s.baseCycles 0xAC 4)

/-- LDY $nnnn,X (R128). -/
def execLdyAbx (w : Addr) (s : State) : Answer :=
  load .y (resolveAbx w s) (s.baseCycles 0xBC 4)

end Sys2Proof.Machine
end

