-- ==== Sys2Proof/Machine/Shift.lean ====
section
/-! DEFINITION. The shift unit and ASL, LSR (45_shift.md R170 to R182). -/

namespace Sys2Proof.Machine

/-- `ShiftLeft(v)` (R170): v · 2 modulo 256, and the bit shifted out, `v[7]`. -/
def shiftLeft (v : Byte) : Byte × Bool := (BitVec.ofNat 8 (v.toNat * 2), v.getLsbD 7)

/-- `ShiftRight(v)` (R171): floor(v / 2), and the bit shifted out, `v[0]`. -/
def shiftRight (v : Byte) : Byte × Bool := (BitVec.ofNat 8 (v.toNat / 2), v.getLsbD 0)

/-- The flags of a shift: C from the bit shifted out, Z and N from the result (R182). -/
def State.setShiftFlags (s : State) (rc : Byte × Bool) : State := (s.setCarry rc.2).setZN rc.1

/-- The accumulator form of a shift (R182). -/
def shiftAcc (unit : Byte → Byte × Bool) (base : Nat) (s : State) : Answer :=
  .next ((({ s with a := (unit s.a).1 } : State).setShiftFlags (unit s.a)).returns base)

/-- The memory form of a shift (R182): one data read and one data write at the same address; the flags after the write. -/
def shiftMem (unit : Byte → Byte × Bool) (e : Res Resolved) (base : Nat) : Answer := finish do
  let m ← e
  let (v, s) ← memRead m.ea m.state
  let s ← memWrite m.ea (unit v).1 s
  return (s.setShiftFlags (unit v)).returns (base + s.writePenalty m.penalty)

/-- ASL A (R172). -/
def execAslAcc (s : State) : Answer := shiftAcc shiftLeft (s.baseCycles 0x0A 2) s

/-- ASL $nn (R173). -/
def execAslZp (b : Byte) (s : State) : Answer :=
  shiftMem shiftLeft (resolveZp b s) (s.baseCycles 0x06 5)

/-- ASL $nn,X (R174). -/
def execAslZpx (b : Byte) (s : State) : Answer :=
  shiftMem shiftLeft (resolveZpx b s) (s.baseCycles 0x16 6)

/-- ASL $nnnn (R175). -/
def execAslAbs (w : Addr) (s : State) : Answer :=
  shiftMem shiftLeft (resolveAbs w s) (s.baseCycles 0x0E 6)

/-- ASL $nnnn,X (R176). -/
def execAslAbx (w : Addr) (s : State) : Answer :=
  shiftMem shiftLeft (resolveAbx w s) (s.baseCycles 0x1E 7)

/-- LSR A (R177). -/
def execLsrAcc (s : State) : Answer := shiftAcc shiftRight (s.baseCycles 0x4A 2) s

/-- LSR $nn (R178). -/
def execLsrZp (b : Byte) (s : State) : Answer :=
  shiftMem shiftRight (resolveZp b s) (s.baseCycles 0x46 5)

/-- LSR $nn,X (R179). -/
def execLsrZpx (b : Byte) (s : State) : Answer :=
  shiftMem shiftRight (resolveZpx b s) (s.baseCycles 0x56 6)

/-- LSR $nnnn (R180). -/
def execLsrAbs (w : Addr) (s : State) : Answer :=
  shiftMem shiftRight (resolveAbs w s) (s.baseCycles 0x4E 6)

/-- LSR $nnnn,X (R181). -/
def execLsrAbx (w : Addr) (s : State) : Answer :=
  shiftMem shiftRight (resolveAbx w s) (s.baseCycles 0x5E 7)

end Sys2Proof.Machine
end

