-- ==== Sys2Proof/Machine/Stack.lean ====
section
/-! DEFINITION. PHA, PHP, PLA, PLP (44_stack.md R162 to R165). -/

namespace Sys2Proof.Machine

/-- PHA (R162). -/
def execPha (s : State) : Answer := finish do
  let t ← push s.a s
  return t.returns (s.baseCycles 0x48 3)

/-- PHP (R163): P as it reads, with the parameter `PHP_PUSH_OR_MASK` OR-ed into the copy (90_conflicts.md C3). -/
def execPhp (s : State) : Answer := finish do
  let t ← push (s.status ||| s.config.phpPushOrMask) s
  return t.returns (s.baseCycles 0x08 3)

/-- PLA (R164): Z and N from the value pulled (D9). -/
def execPla (s : State) : Answer := finish do
  let (v, t) ← pull s
  return (({ t with a := v } : State).setZN v).returns (s.baseCycles 0x68 4)

/-- PLP (R165): the whole register from the stack, Unused forced to 1; `SetZN` is not called. -/
def execPlp (s : State) : Answer := finish do
  let (v, t) ← pull s
  return (t.setStatus v).returns (s.baseCycles 0x28 4)

end Sys2Proof.Machine
end

