-- ==== Sys2Proof/Machine/Store.lean ====
section
/-! DEFINITION. STA, STX, STY (42_store.md R130 to R143). -/

namespace Sys2Proof.Machine

/-- A store of the value `v` of a register (R130): one data write, no register and no flag. -/
def store (v : Byte) (e : Res Resolved) (base : Nat) : Answer := finish do
  let m ← e
  let s ← memWrite m.ea v m.state
  return s.returns (base + s.writePenalty m.penalty)

/-- STA $nn (R131). -/
def execStaZp (b : Byte) (s : State) : Answer :=
  store s.a (resolveZp b s) (s.baseCycles 0x85 3)

/-- STA $nn,X (R132). -/
def execStaZpx (b : Byte) (s : State) : Answer :=
  store s.a (resolveZpx b s) (s.baseCycles 0x95 4)

/-- STA $nnnn (R133). -/
def execStaAbs (w : Addr) (s : State) : Answer :=
  store s.a (resolveAbs w s) (s.baseCycles 0x8D 4)

/-- STA $nnnn,X (R134). -/
def execStaAbx (w : Addr) (s : State) : Answer :=
  store s.a (resolveAbx w s) (s.baseCycles 0x9D 5)

/-- STA $nnnn,Y (R135). -/
def execStaAby (w : Addr) (s : State) : Answer :=
  store s.a (resolveAby w s) (s.baseCycles 0x99 5)

/-- STA ($nn,X) (R136). -/
def execStaIzx (b : Byte) (s : State) : Answer :=
  store s.a (resolveIzx b s) (s.baseCycles 0x81 6)

/-- STA ($nn),Y (R137). -/
def execStaIzy (b : Byte) (s : State) : Answer :=
  store s.a (resolveIzy b s) (s.baseCycles 0x91 6)

/-- STX $nn (R138). -/
def execStxZp (b : Byte) (s : State) : Answer :=
  store s.x (resolveZp b s) (s.baseCycles 0x86 3)

/-- STX $nn,Y (R139). -/
def execStxZpy (b : Byte) (s : State) : Answer :=
  store s.x (resolveZpy b s) (s.baseCycles 0x96 4)

/-- STX $nnnn (R140). -/
def execStxAbs (w : Addr) (s : State) : Answer :=
  store s.x (resolveAbs w s) (s.baseCycles 0x8E 4)

/-- STY $nn (R141). -/
def execStyZp (b : Byte) (s : State) : Answer :=
  store s.y (resolveZp b s) (s.baseCycles 0x84 3)

/-- STY $nn,X (R142). -/
def execStyZpx (b : Byte) (s : State) : Answer :=
  store s.y (resolveZpx b s) (s.baseCycles 0x94 4)

/-- STY $nnnn (R143). -/
def execStyAbs (w : Addr) (s : State) : Answer :=
  store s.y (resolveAbs w s) (s.baseCycles 0x8C 4)

end Sys2Proof.Machine
end

