-- ==== Sys2Proof/Machine/Transfer.lean ====
section
/-! DEFINITION. TAX, TXA, TAY, TYA, TSX, TXS (43_transfer.md R150 to R156). -/

namespace Sys2Proof.Machine

/-- A transfer of the value `v` into the general register `r` (R150). -/
def transfer (r : Reg) (v : Byte) (base : Nat) (s : State) : Answer :=
  .next (((s.setReg r v).setZN v).returns base)

/-- TAX (R151). -/
def execTax (s : State) : Answer := transfer .x s.a (s.baseCycles 0xAA 2) s

/-- TXA (R152). -/
def execTxa (s : State) : Answer := transfer .a s.x (s.baseCycles 0x8A 2) s

/-- TAY (R153). -/
def execTay (s : State) : Answer := transfer .y s.a (s.baseCycles 0xA8 2) s

/-- TYA (R154). -/
def execTya (s : State) : Answer := transfer .a s.y (s.baseCycles 0x98 2) s

/-- TSX (R155): the 8-bit SP, not the stack address. -/
def execTsx (s : State) : Answer := transfer .x s.sp (s.baseCycles 0xBA 2) s

/-- TXS (R156): no flag, unless the parameter `TXS_UPDATES_NZ` is true (90_conflicts.md C2). -/
def execTxs (s : State) : Answer :=
  let moved := { s with sp := s.x }
  let flagged := if s.config.txsUpdatesNZ then moved.setZN s.x else moved
  .next (flagged.returns (s.baseCycles 0x9A 2))

end Sys2Proof.Machine
end

