-- ==== Sys2Proof/Machine/Step.lean ====
section
/-! DEFINITION. One call of `step()` (40_step_and_addressing.md R80). -/

namespace Sys2Proof.Machine

/-- `step()` (R80; 60_exceptions.md R204): a halted core changes nothing and reports its cause again; any other fetches
and decodes one instruction and executes it with PC past its last byte. -/
def step (s : State) : Host.Outcome State Fault Refusal :=
  match s.halted with
  | some cause => .fault (cause.report s)
  | none =>
    match fetchInstr s.begin with
    | .error f => .fault f
    | .ok (i, t) => exec i t

/-- `s` with the instruction of a table word in the plain cells from PC on, where the next step fetches it: the opcode
byte at PC and the two bytes after it, modulo 65536 (30_encoding.md R61). Nothing else changes. -/
def State.withFetchWord (s : State) (nbits w : Nat) : State := s.place s.pc (tableBytes nbits w)

end Sys2Proof.Machine
end

