-- ==== Sys2Proof/Machine/Surface.lean ====
section
/-! DEFINITION. The CPU surface a host sees (10_state.md R30, R31) and what the platform may do between steps
(92_eei_decisions.md D21). Nothing here acts inside a step. -/

namespace Sys2Proof.Machine

/-- What the host or the platform can do to the machine between steps. -/
inductive HostCall where
  | setA (v : Byte)
  | setX (v : Byte)
  | setY (v : Byte)
  | setPC (a : Addr)
  | setSP (v : Byte)
  | setStatus (v : Byte)
  | step
  /-- The platform changes one plain cell, as when a program is loaded (70_reset_and_hazards.md R222). -/
  | setCell (a : Addr) (v : Byte)
  /-- The platform's devices move to another state of their own. -/
  | setDevice (d : Nat)
  deriving DecidableEq, Repr

/-- One call. A setter replaces the register with any value of its width, the status setter with bit 5 forced to 1
(R30; D18, log 18); none of them clears `halted` (60_exceptions.md R204). -/
def HostCall.run (c : HostCall) (s : State) : Answer :=
  match c with
  | .setA v => .next { s with a := v }
  | .setX v => .next { s with x := v }
  | .setY v => .next { s with y := v }
  | .setPC a => .next { s with pc := a }
  | .setSP v => .next { s with sp := v }
  | .setStatus v => .next (s.setStatus v)
  | .step => Sys2Proof.Machine.step s
  | .setCell a v => .next (s.poke a v)
  | .setDevice d => .next { s with device := d }

/-- What the getters return (R30): A, X, Y, PC, SP and P, whose bit 5 reads as 1 (R19). -/
structure Registers where
  a  : Byte
  x  : Byte
  y  : Byte
  pc : Addr
  sp : Byte
  p  : Byte
  deriving DecidableEq, Repr

/-- The getters, which a halted core answers too (60_exceptions.md R204). -/
def State.getters (s : State) : Registers := ⟨s.a, s.x, s.y, s.pc, s.sp, s.status⟩

end Sys2Proof.Machine
end

