-- ==== Sys2Proof/Safety.lean ====
section
/-! DEFINITION. What counts as a run and as a safe run (70_reset_and_hazards.md R223; 60_exceptions.md R203), and the
invariant of the machine's states. -/

namespace Sys2Proof

/-- A completed run: `n` calls of `step()` from `s`, none of which halted, end in `t` (R223). -/
def Completes (n : Nat) (s t : Machine.State) : Prop := Host.Core.run core n s = .next t

/-- A faulted run: one of `n` calls of `step()` from `s` raises the fatal condition `f` (R223). -/
def FaultsWithin (n : Nat) (s : Machine.State) (f : Machine.Fault) : Prop := Host.Core.run core n s = .fault f

/-- A safe run of `n` steps: no halt occurs in it (60_exceptions.md R203). -/
def SafeFor (n : Nat) (s : Machine.State) : Prop := ∃ t, Completes n s t

/-- The total of the counts that `n` calls of `step()` return, as their caller accumulates it, and the end state; none
if one of them halts (10_state.md R23). -/
def totalCycles : Nat → Machine.State → Option (Nat × Machine.State)
  | 0, s => some (0, s)
  | n + 1, s =>
    match Machine.step s with
    | .next t => (totalCycles n t).map (fun r => (t.cycles.getD 0 + r.1, r.2))
    | .fault _ => none
    | .refused _ => none

namespace Machine

/-- The invariant: Unused is 1 (10_state.md R19), the core is not halted, since the only way into that state ends the
run (60_exceptions.md R203), and memory is in canonical form. -/
structure State.Inv (s : State) : Prop where
  unused    : s.p.getLsbD 5 = true
  running   : s.halted = none
  canonical : Memory.wf s.mem

end Machine

end Sys2Proof
end

