-- ==== Sys2Proof/Certificates/Slice0/Obligations.lean ====
section
/-! DEFINITION. The statements for the provers. A statement's docstring names the rule or the section of spec/ that it
formalises, and the log entry where it rests on a choice of the model or of the spec. -/

namespace Sys2Proof

open Machine

/-! ## The forms the statements go through -/

/-- One instruction with an operand in memory, its effective address written out from the mode's rule
(40_step_and_addressing.md R93 to R101) for a state whose cells are plain: the pointer cells it reads, the address
before indexing and after, its opcode byte and its entry of the cycle table (70_reset_and_hazards.md R226). -/
structure MemForm where
  instr    : Instr
  pointers : List Addr
  base     : Addr
  ea       : Addr
  opcode   : Byte
  cycles   : Nat

/-- The page-cross cycle: one when indexing changes the high byte (40_step_and_addressing.md R103). -/
def MemForm.penalty (f : MemForm) : Nat := if hi f.base = hi f.ea then 0 else 1

def zpForm (i : Instr) (b op : Byte) (n : Nat) : MemForm := ⟨i, [], zext16 b, zext16 b, op, n⟩
def zpxForm (s : State) (i : Instr) (b op : Byte) (n : Nat) : MemForm :=
  ⟨i, [], zext16 (b + s.x), zext16 (b + s.x), op, n⟩
def zpyForm (s : State) (i : Instr) (b op : Byte) (n : Nat) : MemForm :=
  ⟨i, [], zext16 (b + s.y), zext16 (b + s.y), op, n⟩
def absForm (i : Instr) (w : Addr) (op : Byte) (n : Nat) : MemForm := ⟨i, [], w, w, op, n⟩
def abxForm (s : State) (i : Instr) (w : Addr) (op : Byte) (n : Nat) : MemForm := ⟨i, [], w, w + zext16 s.x, op, n⟩
def abyForm (s : State) (i : Instr) (w : Addr) (op : Byte) (n : Nat) : MemForm := ⟨i, [], w, w + zext16 s.y, op, n⟩

/-- The 16-bit pointer at `p` and `p + 1` in page 0, whose plain cells it is read from. -/
def pointerAt (s : State) (p : Byte) : Addr := concat (s.peek (zext16 (p + 1))) (s.peek (zext16 p))

def izxForm (s : State) (i : Instr) (b op : Byte) (n : Nat) : MemForm :=
  ⟨i, [zext16 (b + s.x), zext16 (b + s.x + 1)], pointerAt s (b + s.x), pointerAt s (b + s.x), op, n⟩
def izyForm (s : State) (i : Instr) (b op : Byte) (n : Nat) : MemForm :=
  ⟨i, [zext16 b, zext16 (b + 1)], pointerAt s b, pointerAt s b + zext16 s.y, op, n⟩

/-- The 15 loads from memory with their destination registers. -/
def loadForms (s : State) (b : Byte) (w : Addr) : List (Reg × MemForm) :=
  [(.a, zpForm (.ldaZp b) b 0xA5 3),
   (.a, zpxForm s (.ldaZpx b) b 0xB5 4),
   (.a, absForm (.ldaAbs w) w 0xAD 4),
   (.a, abxForm s (.ldaAbx w) w 0xBD 4),
   (.a, abyForm s (.ldaAby w) w 0xB9 4),
   (.a, izxForm s (.ldaIzx b) b 0xA1 6),
   (.a, izyForm s (.ldaIzy b) b 0xB1 5),
   (.x, zpForm (.ldxZp b) b 0xA6 3),
   (.x, zpyForm s (.ldxZpy b) b 0xB6 4),
   (.x, absForm (.ldxAbs w) w 0xAE 4),
   (.x, abyForm s (.ldxAby w) w 0xBE 4),
   (.y, zpForm (.ldyZp b) b 0xA4 3),
   (.y, zpxForm s (.ldyZpx b) b 0xB4 4),
   (.y, absForm (.ldyAbs w) w 0xAC 4),
   (.y, abxForm s (.ldyAbx w) w 0xBC 4)]

/-- The 13 stores with the value each stores. -/
def storeForms (s : State) (b : Byte) (w : Addr) : List (Byte × MemForm) :=
  [(s.a, zpForm (.staZp b) b 0x85 3),
   (s.a, zpxForm s (.staZpx b) b 0x95 4),
   (s.a, absForm (.staAbs w) w 0x8D 4),
   (s.a, abxForm s (.staAbx w) w 0x9D 5),
   (s.a, abyForm s (.staAby w) w 0x99 5),
   (s.a, izxForm s (.staIzx b) b 0x81 6),
   (s.a, izyForm s (.staIzy b) b 0x91 6),
   (s.x, zpForm (.stxZp b) b 0x86 3),
   (s.x, zpyForm s (.stxZpy b) b 0x96 4),
   (s.x, absForm (.stxAbs w) w 0x8E 4),
   (s.y, zpForm (.styZp b) b 0x84 3),
   (s.y, zpxForm s (.styZpx b) b 0x94 4),
   (s.y, absForm (.styAbs w) w 0x8C 4)]

/-- The eight shifts of a memory cell with their shift units. -/
def shiftForms (s : State) (b : Byte) (w : Addr) : List ((Byte → Byte × Bool) × MemForm) :=
  [(shiftLeft, zpForm (.aslZp b) b 0x06 5),
   (shiftLeft, zpxForm s (.aslZpx b) b 0x16 6),
   (shiftLeft, absForm (.aslAbs w) w 0x0E 6),
   (shiftLeft, abxForm s (.aslAbx w) w 0x1E 7),
   (shiftRight, zpForm (.lsrZp b) b 0x46 5),
   (shiftRight, zpxForm s (.lsrZpx b) b 0x56 6),
   (shiftRight, absForm (.lsrAbs w) w 0x4E 6),
   (shiftRight, abxForm s (.lsrAbx w) w 0x5E 7)]

/-- One instruction with an operand in memory on any platform: the mode function that resolves it, its opcode byte and its
entry of the cycle table. -/
structure AnyForm where
  instr   : Instr
  resolve : Res Resolved
  opcode  : Byte
  cycles  : Nat

/-- The 15 loads from memory on any platform. -/
def loadsAny (s : State) (b : Byte) (w : Addr) : List (Reg × AnyForm) :=
  [(.a, ⟨.ldaZp b, resolveZp b s, 0xA5, 3⟩),
   (.a, ⟨.ldaZpx b, resolveZpx b s, 0xB5, 4⟩),
   (.a, ⟨.ldaAbs w, resolveAbs w s, 0xAD, 4⟩),
   (.a, ⟨.ldaAbx w, resolveAbx w s, 0xBD, 4⟩),
   (.a, ⟨.ldaAby w, resolveAby w s, 0xB9, 4⟩),
   (.a, ⟨.ldaIzx b, resolveIzx b s, 0xA1, 6⟩),
   (.a, ⟨.ldaIzy b, resolveIzy b s, 0xB1, 5⟩),
   (.x, ⟨.ldxZp b, resolveZp b s, 0xA6, 3⟩),
   (.x, ⟨.ldxZpy b, resolveZpy b s, 0xB6, 4⟩),
   (.x, ⟨.ldxAbs w, resolveAbs w s, 0xAE, 4⟩),
   (.x, ⟨.ldxAby w, resolveAby w s, 0xBE, 4⟩),
   (.y, ⟨.ldyZp b, resolveZp b s, 0xA4, 3⟩),
   (.y, ⟨.ldyZpx b, resolveZpx b s, 0xB4, 4⟩),
   (.y, ⟨.ldyAbs w, resolveAbs w s, 0xAC, 4⟩),
   (.y, ⟨.ldyAbx w, resolveAbx w s, 0xBC, 4⟩)]

/-- The 13 stores on any platform. -/
def storesAny (s : State) (b : Byte) (w : Addr) : List (Byte × AnyForm) :=
  [(s.a, ⟨.staZp b, resolveZp b s, 0x85, 3⟩),
   (s.a, ⟨.staZpx b, resolveZpx b s, 0x95, 4⟩),
   (s.a, ⟨.staAbs w, resolveAbs w s, 0x8D, 4⟩),
   (s.a, ⟨.staAbx w, resolveAbx w s, 0x9D, 5⟩),
   (s.a, ⟨.staAby w, resolveAby w s, 0x99, 5⟩),
   (s.a, ⟨.staIzx b, resolveIzx b s, 0x81, 6⟩),
   (s.a, ⟨.staIzy b, resolveIzy b s, 0x91, 6⟩),
   (s.x, ⟨.stxZp b, resolveZp b s, 0x86, 3⟩),
   (s.x, ⟨.stxZpy b, resolveZpy b s, 0x96, 4⟩),
   (s.x, ⟨.stxAbs w, resolveAbs w s, 0x8E, 4⟩),
   (s.y, ⟨.styZp b, resolveZp b s, 0x84, 3⟩),
   (s.y, ⟨.styZpx b, resolveZpx b s, 0x94, 4⟩),
   (s.y, ⟨.styAbs w, resolveAbs w s, 0x8C, 4⟩)]

/-- The eight shifts of a memory cell on any platform. -/
def shiftsAny (s : State) (b : Byte) (w : Addr) : List ((Byte → Byte × Bool) × AnyForm) :=
  [(shiftLeft, ⟨.aslZp b, resolveZp b s, 0x06, 5⟩),
   (shiftLeft, ⟨.aslZpx b, resolveZpx b s, 0x16, 6⟩),
   (shiftLeft, ⟨.aslAbs w, resolveAbs w s, 0x0E, 6⟩),
   (shiftLeft, ⟨.aslAbx w, resolveAbx w s, 0x1E, 7⟩),
   (shiftRight, ⟨.lsrZp b, resolveZp b s, 0x46, 5⟩),
   (shiftRight, ⟨.lsrZpx b, resolveZpx b s, 0x56, 6⟩),
   (shiftRight, ⟨.lsrAbs w, resolveAbs w s, 0x4E, 6⟩),
   (shiftRight, ⟨.lsrAbx w, resolveAbx w s, 0x5E, 7⟩)]

/-- The three immediate loads with their registers, opcode bytes and cycle entries. -/
def immediateLoads (v : Byte) : List (Reg × Instr × Byte × Nat) :=
  [(.a, .ldaImm v, 0xA9, 2), (.x, .ldxImm v, 0xA2, 2), (.y, .ldyImm v, 0xA0, 2)]

/-- The five transfers that set flags: destination, source value, opcode byte and cycle entry (43_transfer.md R151 to
R155). -/
def transfers (s : State) : List (Reg × Byte × Instr × Byte × Nat) :=
  [(.x, s.a, .tax, 0xAA, 2), (.a, s.x, .txa, 0x8A, 2), (.y, s.a, .tay, 0xA8, 2), (.a, s.y, .tya, 0x98, 2),
   (.x, s.sp, .tsx, 0xBA, 2)]

/-- The instructions without operand that are no such transfer: opcode byte and cycle entry (70_reset_and_hazards.md
R226). -/
def operandless : List (Instr × Byte × Nat) :=
  [(.txs, 0x9A, 2), (.pha, 0x48, 3), (.php, 0x08, 3), (.pla, 0x68, 4), (.plp, 0x28, 4), (.aslAcc, 0x0A, 2),
   (.lsrAcc, 0x4A, 2)]

/-- The 23 instructions that write memory, each with the cell it writes and the byte it writes there on plain cells: the
stores, the memory shifts, PHA and PHP. -/
def writingForms (s : State) (b : Byte) (w : Addr) : List (Instr × Addr × Byte) :=
  (storeForms s b w).map (fun vf => (vf.2.instr, vf.2.ea, vf.1)) ++
    (shiftForms s b w).map (fun uf => (uf.2.instr, uf.2.ea, (uf.1 (s.peek uf.2.ea)).1)) ++
    [(.pha, stackAddr s.sp, s.a), (.php, stackAddr s.sp, s.p ||| 0x20 ||| s.config.phpPushOrMask)]

/-- Bytes pushed one after the other, the head of the list first. -/
def pushAll : List Byte → State → Res State
  | [], s => .ok s
  | v :: vs, s => push v s >>= pushAll vs

/-- The 205 opcode byte values that 30_encoding.md R67 lists. -/
def illegalBytes : List Nat :=
  [0x00, 0x01, 0x02, 0x03, 0x04, 0x05, 0x07, 0x09, 0x0B, 0x0C, 0x0D, 0x0F] ++
  [0x10, 0x11, 0x12, 0x13, 0x14, 0x15, 0x17, 0x18, 0x19, 0x1A, 0x1B, 0x1C, 0x1D, 0x1F] ++
  [0x20, 0x21, 0x22, 0x23, 0x24, 0x25, 0x26, 0x27, 0x29, 0x2A, 0x2B, 0x2C, 0x2D, 0x2E, 0x2F] ++
  List.range' 0x30 16 ++
  [0x40, 0x41, 0x42, 0x43, 0x44, 0x45, 0x47, 0x49, 0x4B, 0x4C, 0x4D, 0x4F] ++
  [0x50, 0x51, 0x52, 0x53, 0x54, 0x55, 0x57, 0x58, 0x59, 0x5A, 0x5B, 0x5C, 0x5D, 0x5F] ++
  [0x60, 0x61, 0x62, 0x63, 0x64, 0x65, 0x66, 0x67, 0x69, 0x6A, 0x6B, 0x6C, 0x6D, 0x6E, 0x6F] ++
  List.range' 0x70 16 ++
  [0x80, 0x82, 0x83, 0x87, 0x88, 0x89, 0x8B, 0x8F] ++
  [0x90, 0x92, 0x93, 0x97, 0x9B, 0x9C, 0x9E, 0x9F] ++
  [0xA3, 0xA7, 0xAB, 0xAF] ++
  [0xB0, 0xB2, 0xB3, 0xB7, 0xB8, 0xBB, 0xBF] ++
  List.range' 0xC0 64

/-- The flags a load, a transfer or a pull of A may change are Z and N alone; the registers, the stack pointer, the
program counter, the halt latch, the parameters and all of memory stay. -/
structure SameButRegAndZN (r : Reg) (s t : State) : Prop where
  regs   : ∀ q, q ≠ r → t.getReg q = s.getReg q
  sp     : t.sp = s.sp
  pc     : t.pc = s.pc
  flags  : ∀ f : Flag, f ≠ .zero → f ≠ .negative → getFlag f t.p = getFlag f s.p
  halted : t.halted = s.halted
  config : t.config = s.config
  memory : ∀ a, t.peek a = s.peek a

/-- Every register, the whole of P, the halt latch and the parameters stay. -/
structure SameRegisters (s t : State) : Prop where
  a      : t.a = s.a
  x      : t.x = s.x
  y      : t.y = s.y
  sp     : t.sp = s.sp
  pc     : t.pc = s.pc
  p      : t.p = s.p
  halted : t.halted = s.halted
  config : t.config = s.config

end Sys2Proof

open Sys2Proof Sys2Proof.Machine

/-- For every list of bytes bs, every instruction i and every rest: decode bs answers (i, rest) if and only if bs is
encode i followed by rest. So every instruction, with every operand value, decodes back to itself, and nothing but
its own encoding decodes to it. The opcode bytes are the spec's from general knowledge (log 10). (30_encoding.md
section 1, 30_encoding.md section 2.) -/
def Obligations.DecodeAcceptsExactlyTheEncodings : Prop :=
  ∀ (bs rest : List Byte) (i : Instr), decode bs = .ok (i, rest) ↔ bs = encode i ++ rest

/-- The list of illegal bytes holds 205 different values; a byte is in it if and only if it selects no row of the opcode
map; and a list of bytes that begins with one is rejected as that illegal opcode whatever follows. The list is that
of 30_encoding.md section 3, which rests on the opcode assignment of D1 and on D3 (log 10). (30_encoding.md section
3, 92_eei_decisions.md D3.) -/
def Obligations.IllegalOpcodeBytesAreRejected : Prop :=
  illegalBytes.length = 205 ∧ illegalBytes.Nodup ∧
    (∀ b : Byte, lookupOpcode b = none ↔ b.toNat ∈ illegalBytes) ∧
    (∀ (b : Byte) (rest : List Byte), b.toNat ∈ illegalBytes → decode (b :: rest) = .error (.illegalOpcode b))

/-- One word of each family, written out bit by bit from the encodings of the opcode table, decodes to its instruction
with its operand: LDA (zp,X), LDX zp,Y, LDY abs,X, STA abs, STX zp,Y, STY zp, TSX, PLP, ASL abs,X, LSR A.
(30_encoding.md section 2, 30_encoding.md section 4.) -/
def Obligations.WrittenOutEncodingsDecode : Prop :=
  decodeTableWord 16 0b00101111_10100001 = some (.ldaIzx 0x2F) ∧
    decodeTableWord 16 0b11111111_10110110 = some (.ldxZpy 0xFF) ∧
    decodeTableWord 24 0b00010010_00110100_10111100 = some (.ldyAbx 0x1234) ∧
    decodeTableWord 24 0b00000011_00000000_10001101 = some (.staAbs 0x0300) ∧
    decodeTableWord 16 0b00000010_10010110 = some (.stxZpy 0x02) ∧
    decodeTableWord 16 0b00010000_10000100 = some (.styZp 0x10) ∧
    decodeTableWord 8 0b10111010 = some .tsx ∧
    decodeTableWord 8 0b00101000 = some .plp ∧
    decodeTableWord 24 0b00000010_11111111_00011110 = some (.aslAbx 0x02FF) ∧
    decodeTableWord 8 0b01001010 = some .lsrAcc

/-- For every line of assembly l (a mnemonic, a mode and an operand as written) and every instruction i: assembling l
gives i if and only if l is the line i is written as. A line that is not well formed assembles to nothing, a well-
formed one to some instruction, and every instruction is well formed. (30_encoding.md section 4.) -/
def Obligations.AssemblerAcceptsExactlyWellFormedLines : Prop :=
  (∀ (l : AsmLine) (i : Instr), assemble l = some i ↔ i.line = l) ∧
    (∀ l : AsmLine, (∃ i, assemble l = some i) ↔ l.wellFormed = true) ∧
    (∀ i : Instr, i.wellFormed = true)

/-- For every instruction the encoding has as many bytes as the length of the instruction, which is 1 in the modes IMP
and ACC, 2 in IMM, ZP, ZPX, ZPY, IZX and IZY, and 3 in ABS, ABX and ABY; no instruction is in IND or REL.
(30_encoding.md section 1.) -/
def Obligations.EncodingHasTheLengthOfItsMode : Prop :=
  ∀ i : Instr, (encode i).length = i.length ∧
    (i.mode ∈ [Mode.imp, .acc] → i.length = 1) ∧
    (i.mode ∈ [Mode.imm, .zp, .zpx, .zpy, .izx, .izy] → i.length = 2) ∧
    (i.mode ∈ [Mode.abs, .abx, .aby] → i.length = 3) ∧
    i.mode ≠ .ind ∧ i.mode ≠ .rel

/-- For every state that is not halted, if the plain cells at PC, PC+1 and PC+2 (modulo 65536) decode to the instruction
i, and the cells of i's own bytes are plain for reads, then step is exec of i on the same state with PC advanced by
the length of i, no cycle count returned yet, and the reads of those bytes, in ascending order, as the only accesses
made. The order of the reads is D11 (log 16); the two output fields are the model's (logs 7 and 8).
(40_step_and_addressing.md section 1, 20_memory.md section 5, 30_encoding.md section 1.) -/
def Obligations.StepRunsTheDecodedInstruction : Prop :=
  ∀ (s : State) (i : Instr) (rest : List Byte), s.halted = none →
    decode [s.peek s.pc, s.peek (s.pc + 1), s.peek (s.pc + 2)] = .ok (i, rest) →
    (∀ k, k < i.length → s.readService (s.pc + BitVec.ofNat 16 k) = .ram) →
    step s = exec i { s with
      pc := s.pc + BitVec.ofNat 16 i.length
      cycles := none
      accesses := (List.range i.length).map (fun k => Access.read (s.pc + BitVec.ofNat 16 k)) }

/-- For every state that is not halted whose cell at PC is plain and holds one of the 205 illegal bytes, the step is the
fault IllegalOpcode with that byte and the address it was fetched from; the halted core has the cause latched, PC
advanced by one, one access made (the read of the opcode byte), no cycle count, and every other field as before.
What is recorded, and the latch, are the spec's choices D13 and D19 (log 6). (60_exceptions.md section 1,
92_eei_decisions.md D13.) -/
def Obligations.StepStopsOnAnIllegalOpcode : Prop :=
  ∀ s : State, s.halted = none → s.readService s.pc = .ram → (s.peek s.pc).toNat ∈ illegalBytes →
    step s = .fault (.illegalOpcode (s.peek s.pc) s.pc { s with
      pc := s.pc + 1
      halted := some (.illegalOpcode (s.peek s.pc) s.pc)
      cycles := none
      accesses := [.read s.pc] })

/-- For every state that is not halted, on every platform, a device that answers Unserviceable included: if the read of
the opcode byte at PC fails, the step is the fault MemoryUnserviceable for it, with nothing changed but the latch
and the outputs. If that read gives the opcode byte of an instruction i of two or three bytes and leaves the state
u, and the read of PC+1 fails, the fault is for the read of PC+1, and its state is u with the cause latched and PC
advanced by one; in the mode IMM, whose rule moves PC before the byte is read, by two (log 9). If i has three bytes,
the read of PC+1 leaves the state v, and the read of PC+2 fails, the fault is for the read of PC+2, and its state is
v with the cause latched and PC advanced by two. The latch is D13 and D19 (log 6), the platform's form log 5, the
outputs logs 7 and 8. (60_exceptions.md section 1, 60_exceptions.md section 3, 40_step_and_addressing.md section 1,
20_memory.md section 1.) -/
def Obligations.UnserviceableFetchStopsTheStep : Prop :=
  ∀ s : State, s.halted = none →
    (∀ f, memRead s.pc { s with cycles := none, accesses := [] } = .error f →
      step s = .fault (.memoryUnserviceable (.read s.pc) { s with
        halted := some (.memoryUnserviceable (.read s.pc)), cycles := none, accesses := [] })) ∧
    (∀ (i : Instr) (u : State) (f : Fault),
      memRead s.pc { s with cycles := none, accesses := [] } = .ok (i.opcode, u) → 2 ≤ i.length →
      memRead (s.pc + 1) u = .error f →
      step s = .fault (.memoryUnserviceable (.read (s.pc + 1)) { u with
        pc := s.pc + (if i.mode = .imm then 2 else 1)
        halted := some (.memoryUnserviceable (.read (s.pc + 1))) })) ∧
    (∀ (i : Instr) (u v : State) (l : Byte) (f : Fault),
      memRead s.pc { s with cycles := none, accesses := [] } = .ok (i.opcode, u) → i.length = 3 →
      memRead (s.pc + 1) u = .ok (l, v) → memRead (s.pc + 2) v = .error f →
      step s = .fault (.memoryUnserviceable (.read (s.pc + 2)) { v with
        pc := s.pc + 2, halted := some (.memoryUnserviceable (.read (s.pc + 2))) }))

/-- For every state with a latched cause, step answers the fault that reports that cause with the state unchanged; and
every host call that answers a next state leaves the latch as it was. The permanent latch is the spec's decision D19
(log 6). (60_exceptions.md section 1, 60_exceptions.md section 4, 92_eei_decisions.md D19.) -/
def Obligations.HaltedCoreStaysHalted : Prop :=
  ∀ (s : State) (c : HaltCause), s.halted = some c →
    step s = .fault (c.report s) ∧
    (∀ (h : HostCall) (t : State), h.run s = .next t → t.halted = some c)

/-- For every state: a fetch that the platform services advances PC by one; no instruction's meaning changes PC; and
after every completed step PC is the old PC plus the length of the instruction the step fetched, modulo 65536, a
length of 1, 2 or 3. (R12.) -/
def Obligations.PcMovesByTheInstructionLengthOnly : Prop :=
  (∀ (s t : State) (b : Byte), fetch8 s = .ok (b, t) → t.pc = s.pc + 1) ∧
    (∀ (i : Instr) (s t : State), exec i s = .next t → t.pc = s.pc) ∧
    (∀ s t : State, step s = .next t → ∃ (i : Instr) (u : State), fetchInstr s.begin = .ok (i, u) ∧
      t.pc = s.pc + BitVec.ofNat 16 i.length ∧ i.length ∈ [1, 2, 3])

/-- For every state and platform: if the read of PC gives a byte, the fetch gives that byte and the state the read
leaves with PC plus one modulo 65536; two operand bytes are two fetches, the low byte first. On plain cells the
fetch gives the cell at PC, and two operand bytes are the low byte at PC and the high byte at PC plus one, with PC
advanced by two. If the read of PC raises MemoryUnserviceable, by a window or by a device, the fetch raises it with
PC as it was; and so it is for the second of two operand bytes, with PC advanced by one. (R82.) -/
def Obligations.FetchReadsAtPcAndAdvancesIt : Prop :=
  ∀ s : State,
    (s.readService s.pc = .ram →
      fetch8 s = .ok (s.peek s.pc, { s with pc := s.pc + 1, accesses := s.accesses ++ [.read s.pc] })) ∧
    (s.readService s.pc = .ram → s.readService (s.pc + 1) = .ram →
      fetch16 s = .ok (concat (s.peek (s.pc + 1)) (s.peek s.pc),
        { s with pc := s.pc + 2, accesses := s.accesses ++ [.read s.pc, .read (s.pc + 1)] })) ∧
    (∀ v u, memRead s.pc s = .ok (v, u) → fetch8 s = .ok (v, { u with pc := s.pc + 1 })) ∧
    (∀ l t h u, fetch8 s = .ok (l, t) → fetch8 t = .ok (h, u) → fetch16 s = .ok (concat h l, u)) ∧
    (∀ f, memRead s.pc s = .error f → fetch8 s = .error f ∧ fetch16 s = .error f ∧
      ∃ u, f = .memoryUnserviceable (.read s.pc) u ∧ u.pc = s.pc) ∧
    (∀ l t f, fetch8 s = .ok (l, t) → memRead (s.pc + 1) t = .error f → fetch16 s = .error f ∧
      ∃ u, f = .memoryUnserviceable (.read (s.pc + 1)) u ∧ u.pc = s.pc + 1)

/-- For every state that is not halted and every count and list of accesses: the step from the state with those two
output fields replaced is the step from the state itself. The registers, the latch, the platform's state and the
parameters are all that is left in a state. (R32.) -/
def Obligations.StepIgnoresWhatEarlierStepsReturned : Prop :=
  ∀ (s : State) (n : Option Nat) (l : List Access), s.halted = none →
    step { s with cycles := n, accesses := l } = step s

/-- For every completed step the list of accesses has between one and five entries, and the first is the read of the
opcode byte at the old PC. The bound is the spec's derivation; the list is the model's output field (log 8).
(40_step_and_addressing.md section 1, 20_memory.md section 1, 90_conflicts.md C10.) -/
def Obligations.StepMakesOneToFiveAccesses : Prop :=
  ∀ s t : State, step s = .next t →
    1 ≤ t.accesses.length ∧ t.accesses.length ≤ 5 ∧ t.accesses.head? = some (.read s.pc)

/-- For every completed step of a machine whose cycle table is that of the spec, the step returns a count of at least 2
and at most 8, and at most 7 unless PENALTY_ON_WRITES is set. The table is the spec's from general knowledge (D15,
log 12). (70_reset_and_hazards.md section 5, 40_step_and_addressing.md section 1, 92_eei_decisions.md D15.) -/
def Obligations.StepReturnsACountInItsRange : Prop :=
  ∀ s t : State, s.config.baseCycles = [] → step s = .next t →
    ∃ n, t.cycles = some n ∧ 2 ≤ n ∧ n ≤ 8 ∧ (s.config.penaltyOnWrites = false → n ≤ 7)

/-- For every state, opcode byte and table entry, and every list of the machine's own entries: if none of them is for
that opcode, the base cost is the entry of the table; otherwise it is the first of them that is for that opcode,
wherever it stands. The parameter's form is the model's (log 4). (00_scope.md section 3, 70_reset_and_hazards.md
section 5.) -/
def Obligations.BaseCycleParameterDecidesTheCost : Prop :=
  ∀ (s : State) (op : Byte) (n : Nat),
    ((∀ e ∈ s.config.baseCycles, e.1 ≠ op) → s.baseCycles op n = n) ∧
    (∀ (k : Nat) (l r : List (Byte × Nat)), s.config.baseCycles = l ++ (op, k) :: r → (∀ e ∈ l, e.1 ≠ op) →
      s.baseCycles op n = k)

/-- For every state on the default platform: each of the 15 loads from memory returns its base cost plus the page-cross
penalty, which is 0 but in ABX, ABY and IZY; each of the 13 stores and eight memory shifts returns its base cost,
plus the penalty only with PENALTY_ON_WRITES. On every platform the other 15 return their base cost whenever they
complete: the immediate loads 2, the six transfers 2, PHA and PHP 3, PLA and PLP 4, ASL A and LSR A 2 by the table,
the machine's own entry where it has one (logs 4 and 12). LDA immediate returns 2, and LDA absolute,X with base
0x00FF and X = 1 returns 5, on a machine with the table of the spec. No step reads the count.
(40_step_and_addressing.md section 1, 70_reset_and_hazards.md section 5, 92_eei_decisions.md D12.) -/
def Obligations.CycleCountAddsThePagePenalty : Prop :=
  (∀ (s t : State) (b : Byte) (w : Addr), s.config.platform.windows = [] →
      (∀ rf ∈ loadForms s b w, exec rf.2.instr s = .next t →
        t.cycles = some (s.baseCycles rf.2.opcode rf.2.cycles + rf.2.penalty)) ∧
      (∀ vf ∈ storeForms s b w, exec vf.2.instr s = .next t →
        t.cycles = some (s.baseCycles vf.2.opcode vf.2.cycles +
          if s.config.penaltyOnWrites then vf.2.penalty else 0)) ∧
      (∀ uf ∈ shiftForms s b w, exec uf.2.instr s = .next t →
        t.cycles = some (s.baseCycles uf.2.opcode uf.2.cycles +
          if s.config.penaltyOnWrites then uf.2.penalty else 0))) ∧
    (∀ (s t : State) (v : Byte), ∀ r ∈ (immediateLoads v).map (fun r => r.2) ++ (transfers s).map (fun r => r.2.2) ++
        operandless,
      exec r.1 s = .next t → t.cycles = some (s.baseCycles r.2.1 r.2.2)) ∧
    (∀ (s : State) (v : Byte), s.config.baseCycles = [] → ∃ t, exec (.ldaImm v) s = .next t ∧ t.cycles = some 2) ∧
    (∀ s : State, s.config.baseCycles = [] → s.config.platform.windows = [] → s.x = 1 →
      ∃ t, exec (.ldaAbx 0x00FF) s = .next t ∧ t.a = s.peek 0x0100 ∧ t.cycles = some 5) ∧
    (∀ (s t : State), step s = .next t → ∀ n, step { t with cycles := n } = step t)

/-- For every state on the default platform: every instruction, with every operand, gives a next state; and a step from
a state that is not halted gives a next state if the byte at PC has a row of the opcode map, and otherwise the fault
IllegalOpcode with that byte and address. The default platform is D14 (log 5). (40_step_and_addressing.md section 1,
60_exceptions.md section 1, 92_eei_decisions.md D14.) -/
def Obligations.DefaultPlatformServesEveryInstruction : Prop :=
  ∀ s : State, s.config.platform.windows = [] →
    (∀ i : Instr, ∃ t, exec i s = .next t) ∧
    (s.halted = none → lookupOpcode (s.peek s.pc) ≠ none → ∃ t, step s = .next t) ∧
    (s.halted = none → lookupOpcode (s.peek s.pc) = none →
      ∃ t, step s = .fault (.illegalOpcode (s.peek s.pc) s.pc t))

/-- For every state, step answers a next state or a fault; no instruction is refused. (40_step_and_addressing.md section
1, 60_exceptions.md section 1.) -/
def Obligations.NoStepRefuses : Prop :=
  ∀ (s : State) (r : Refusal), step s ≠ .refused r

/-- For every instruction and state: if exec answers a fault, it is MemoryUnserviceable for some access, the halted core
has that cause latched, and A, X, Y, P, PC, the parameters and every cell are as before exec; SP is as before, but
for PLA and PLP, which have already incremented it. The latch is D13 and D19 (log 6). (60_exceptions.md section 1,
44_stack.md section 1, 45_shift.md section 1.) -/
def Obligations.FailedAccessLeavesRegistersAlone : Prop :=
  ∀ (i : Instr) (s : State) (f : Fault), exec i s = .fault f →
    ∃ (c : Access) (u : State), f = .memoryUnserviceable c u ∧ u.halted = some (.memoryUnserviceable c) ∧
      u.a = s.a ∧ u.x = s.x ∧ u.y = s.y ∧ u.p = s.p ∧ u.pc = s.pc ∧ u.config = s.config ∧
      (∀ a, u.peek a = s.peek a) ∧
      u.sp = (if i = .pla ∨ i = .plp then s.sp + 1 else s.sp)

/-- For every instruction that gives a next state: if it is not PLP, the flags Interrupt-disable, Decimal, Break and
Overflow are as before; if it is neither PLP nor one of the ten shifts, Carry is as before. (10_state.md section 4,
92_eei_decisions.md D23.) -/
def Obligations.OnlyPlpChangesInterruptDecimalBreakOverflow : Prop :=
  ∀ (i : Instr) (s t : State), exec i s = .next t → i ≠ .plp →
    (∀ f ∈ [Flag.interruptDisable, .decimal, .brk, .overflow], getFlag f t.p = getFlag f s.p) ∧
    (i.mnemonic ≠ .asl → i.mnemonic ≠ .lsr → getFlag .carry t.p = getFlag .carry s.p)

/-- For every instruction but PHP that gives a next state t from s, and every byte q: from s with P replaced by q it
gives a next state that differs from t at most in P. (10_state.md section 4, 92_eei_decisions.md D23.) -/
def Obligations.NoInstructionButPhpReadsTheFlags : Prop :=
  ∀ (i : Instr) (s t : State) (q : Byte), i ≠ .php → exec i s = .next t →
    ∃ u, exec i { s with p := q } = .next u ∧ { u with p := t.p } = t

/-- For every state that meets the invariant (bit 5 of P is 1, the core is not halted, memory is in canonical form): if
step answers a next state, that state meets it too, and its parameters are the same. The canonical form of memory is
the model's (log 2). (10_state.md section 4, 20_memory.md section 1, 60_exceptions.md section 1.) -/
def Obligations.StepKeepsTheInvariant : Prop :=
  ∀ s t : State, s.Inv → step s = .next t → t.Inv ∧ t.config = s.config

/-- The state after reset has bit 5 of P at 1 and is not halted, as the spec says, and its memory, which lists nothing,
is in canonical form. That nothing is listed, and the canonical form, are the model's choice (log 2), because the
spec leaves memory to the platform; the state is that of the default machine (log 1). (10_state.md section 8,
70_reset_and_hazards.md section 1.) -/
def Obligations.ResetMeetsTheInvariant : Prop :=
  State.reset.Inv

/-- For every number n of steps and every state that meets the invariant: if the run of n steps completes, its end state
meets the invariant and has the same parameters; and every shorter run from the same state completes too. No host
call and no other agent acts between the steps of such a run (D21, log 19); the canonical form of memory in the
invariant is the model's (log 2), the parameters' form log 4. (70_reset_and_hazards.md section 3, 10_state.md
section 4, 92_eei_decisions.md D21.) -/
def Obligations.CompletedRunKeepsTheInvariant : Prop :=
  ∀ (n : Nat) (s t : State), s.Inv → Completes n s t →
    t.Inv ∧ t.config = s.config ∧ ∀ m, m ≤ n → SafeFor m s

/-- For every run from a state that is not halted: if it faults, the fault reports a cause with a state in which that
cause is latched, and every longer run from that state, of one or more steps, answers the same fault. No other agent
acts between the steps of a run (D21, log 19). The latch is D13 and D19 (log 6). (60_exceptions.md section 1,
70_reset_and_hazards.md section 3, 92_eei_decisions.md D19.) -/
def Obligations.FaultedRunLeavesACoreHaltedForGood : Prop :=
  ∀ (n : Nat) (s : State) (f : Fault), s.halted = none → FaultsWithin n s f →
    ∃ (c : HaltCause) (u : State), f = c.report u ∧ u.halted = some c ∧ ∀ m, FaultsWithin (m + 1) u f

/-- For every configuration, memory and device state: the core after power-on has A, X, Y, PC and SP at their RESET
values, P at its RESET value with bit 5 forced to 1, is not halted, has made no access and returned no count, and
the platform is as it was. The default machine's own zeros are the model's choice (log 1) and are not stated here.
(70_reset_and_hazards.md section 1, 10_state.md section 8, 92_eei_decisions.md D5.) -/
def Obligations.PowerOnSetsTheParameterValues : Prop :=
  ∀ (c : Config) (m : List Host.Cell) (d : Nat),
    let s := State.powerOn c m d
    s.a = c.reset.a ∧ s.x = c.reset.x ∧ s.y = c.reset.y ∧ s.pc = c.reset.pc ∧ s.sp = c.reset.sp ∧
    (∀ k, k < 8 → s.p.getLsbD k = (c.reset.p.getLsbD k || k == 5)) ∧
    s.halted = none ∧ s.mem = m ∧ s.device = d ∧ s.config = c ∧ s.accesses = [] ∧ s.cycles = none

/-- For every state: after each setter the getters return what they returned before but for the register set, which
holds the value given; the status setter stores the value with bit 5 forced to 1 (D18, log 18). (10_state.md section
7, 92_eei_decisions.md D18.) -/
def Obligations.HostSettersReplaceOneRegister : Prop :=
  ∀ (s : State) (v : Byte) (w : Addr),
    (HostCall.setA v).run s = .next { s with a := v } ∧
    (HostCall.setX v).run s = .next { s with x := v } ∧
    (HostCall.setY v).run s = .next { s with y := v } ∧
    (HostCall.setPC w).run s = .next { s with pc := w } ∧
    (HostCall.setSP v).run s = .next { s with sp := v } ∧
    (HostCall.setStatus v).run s = .next { s with p := v ||| 0x20 } ∧
    s.getters = ⟨s.a, s.x, s.y, s.pc, s.sp, s.p ||| 0x20⟩

/-- For every status byte and flag: getting a flag says whether its masked bit is 1; setting it to true or false gives
that value on the next get, but for Unused, which setting to false leaves as it is; every other flag reads as
before. The eight masks are 0x01, 0x02, 0x04, 0x08, 0x10, 0x20, 0x40 and 0x80 in the order of the spec's list (D4,
log 11). (10_state.md section 4, 90_conflicts.md C9, 92_eei_decisions.md D4.) -/
def Obligations.FlagAccessorsTouchOneBit : Prop :=
  ∀ (f g : Flag) (v : Bool) (p : Byte),
    getFlag f p = decide ((p &&& f.mask) ≠ 0) ∧
    (f ≠ .unused → getFlag f (setFlag f v p) = v) ∧
    getFlag .unused (setFlag .unused true p) = true ∧
    setFlag .unused false p = p ∧
    (g ≠ f → getFlag g (setFlag f v p) = getFlag g p) ∧
    [Flag.carry, .zero, .interruptDisable, .decimal, .brk, .unused, .overflow, .negative].map Flag.mask =
      [0x01, 0x02, 0x04, 0x08, 0x10, 0x20, 0x40, 0x80]

/-- For every status byte and value v, the update sets Zero to whether v is 0 and Negative to bit 7 of v, and leaves the
other six bits; 0x00 gives Zero and not Negative, 0x80 Negative and not Zero. After every load, every transfer but
TXS (whose case is the parameter of D8) and every accumulator shift, Z and N are those of the value now in the
destination register; after a memory shift they are those of the value it wrote. (R18.) -/
def Obligations.ResultsSetZeroAndNegative : Prop :=
  (∀ v p : Byte, getFlag .zero (setZNByte v p) = decide (v = 0) ∧
      getFlag .negative (setZNByte v p) = v.getLsbD 7 ∧
      (∀ f : Flag, f ≠ .zero → f ≠ .negative → getFlag f (setZNByte v p) = getFlag f p)) ∧
    (∀ p : Byte, getFlag .zero (setZNByte 0x00 p) = true ∧ getFlag .negative (setZNByte 0x00 p) = false ∧
      getFlag .zero (setZNByte 0x80 p) = false ∧ getFlag .negative (setZNByte 0x80 p) = true) ∧
    (∀ (s t : State) (b : Byte) (w : Addr), ∀ ri ∈ (loadsAny s b w).map (fun rf => (rf.1, rf.2.instr)) ++
        (immediateLoads b).map (fun r => (r.1, r.2.1)) ++ (transfers s).map (fun r => (r.1, r.2.2.1)) ++
        [(Reg.a, .aslAcc), (Reg.a, .lsrAcc)],
      exec ri.2 s = .next t → getFlag .zero t.p = decide (t.getReg ri.1 = 0) ∧
        getFlag .negative t.p = (t.getReg ri.1).getLsbD 7) ∧
    (∀ (s t : State) (b : Byte) (w : Addr), ∀ uf ∈ shiftsAny s b w, exec uf.2.instr s = .next t →
      ∃ a v, t.accesses.getLast? = some (.write a v) ∧
        getFlag .zero t.p = decide (v = 0) ∧ getFlag .negative t.p = v.getLsbD 7)

/-- For every state: the getter and the byte PHP pushes have bit 5 at 1; after PLP, after the host setter and after
power-on, P is the byte offered with bit 5 set to 1. (R19.) -/
def Obligations.UnusedAlwaysReadsOne : Prop :=
  (∀ s : State, s.status.getLsbD 5 = true ∧ s.getters.p.getLsbD 5 = true) ∧
    (∀ s t : State, exec .php s = .next t →
      ∃ a v, t.accesses.getLast? = some (.write a v) ∧ v.getLsbD 5 = true) ∧
    (∀ s t : State, exec .plp s = .next t → ∃ v u, pull s = .ok (v, u) ∧ t.p = v ||| 0x20) ∧
    (∀ (s t : State) (v : Byte), (HostCall.setStatus v).run s = .next t → t.p = v ||| 0x20) ∧
    (∀ (c : Config) (m : List Host.Cell) (d : Nat), (State.powerOn c m d).p = c.reset.p ||| 0x20)

/-- For every state whose memory is canonical and every address that is plain for writes: a write is serviced, a read of
that address afterwards, if it is plain for reads too, gives the byte written, and a read of any other address that
is plain for reads gives what it gave before. On any platform a serviced write leaves memory in canonical form and
changes no cell but the one its address stands for, which is another one only in a mirror window. The canonical form
is the model's choice (log 2); flat RAM is D14, and the windows are the model's form of the platform (log 5).
(20_memory.md section 1, 20_memory.md section 5.) -/
def Obligations.PlainCellReadsBackTheLastWrite : Prop :=
  ∀ (s : State) (a : Addr) (v : Byte), Memory.wf s.mem →
    (s.writeService a = .ram → ∃ t, memWrite a v s = .ok t ∧
      (s.readService a = .ram → ∃ u, memRead a t = .ok (v, u)) ∧
      (∀ b, b ≠ a → s.readService b = .ram → ∃ u, memRead b t = .ok (s.peek b, u))) ∧
    (∀ t, memWrite a v s = .ok t → Memory.wf t.mem ∧ (s.writeService a = .ram → s.writeCell a = a) ∧
      ∀ b, b ≠ s.writeCell a → t.peek b = s.peek b)

/-- For all memories in canonical form: if every one of the 65536 addresses reads the same in both, they are equal. The
canonical form is the model's (log 2). (20_memory.md section 1.) -/
def Obligations.CanonicalMemoriesThatReadAlikeAreEqual : Prop :=
  ∀ m n : Memory, m.wf → n.wf → (∀ a : Addr, m.read a.toNat = n.read a.toNat) → m = n

/-- If no other agent acts between the two steps (D21, log 19): for every state on the default platform with canonical
memory (logs 5 and 2) that is not halted, if the bytes at PC are STA absolute with PC plus 3 as its operand and A
holds the opcode byte of an instruction without operand bytes, then the step after the store runs that instruction,
with PC past it and the read of the new byte as its one fetch (logs 7 and 8). The other writing instructions and
longer next instructions have a statement of their own, WrittenBytesAreFetchedByTheNextStep. (20_memory.md section
5, 10_state.md section 5, 92_eei_decisions.md D21.) -/
def Obligations.StoredBytesAreTheNextInstruction : Prop :=
  ∀ (s : State) (i : Instr) (rest : List Byte), s.halted = none → s.config.platform.windows = [] → Memory.wf s.mem →
    decode [s.peek s.pc, s.peek (s.pc + 1), s.peek (s.pc + 2)] = .ok (.staAbs (s.pc + 3), rest) →
    i.length = 1 → s.a = i.opcode →
    ∃ t, step s = .next t ∧ t.pc = s.pc + 3 ∧
      step t = exec i { t with pc := s.pc + 4, cycles := none, accesses := [.read (s.pc + 3)] }

/-- For every state whose cell at PC is plain, with PC at the operand byte: the mode ZP gives the operand byte zero-
extended, ZPX the operand plus X modulo 256 in page 0, ZPY the operand plus Y modulo 256 in page 0; each with PC
advanced by one, one read and penalty 0, and with the high byte of the address 0. (R93, R94, R95.) -/
def Obligations.ZeroPageModesStayInPageZero : Prop :=
  ∀ s : State, s.readService s.pc = .ram →
    let b := s.peek s.pc
    let t : State := { s with pc := s.pc + 1, accesses := s.accesses ++ [.read s.pc] }
    resolve .zp s = .ok (some ⟨zext16 b, 0, t⟩) ∧
    resolve .zpx s = .ok (some ⟨BitVec.ofNat 16 ((b.toNat + s.x.toNat) % 256), 0, t⟩) ∧
    resolve .zpy s = .ok (some ⟨BitVec.ofNat 16 ((b.toNat + s.y.toNat) % 256), 0, t⟩) ∧
    (∀ r, (resolve .zp s = .ok (some r) ∨ resolve .zpx s = .ok (some r) ∨ resolve .zpy s = .ok (some r)) →
      hi r.ea = 0)

/-- For every state whose cells at PC and PC+1 are plain, with PC at the first operand byte: ABS gives the 16-bit
operand, low byte first, with penalty 0; ABX and ABY give it plus X or Y modulo 65536, with penalty 1 if the high
byte of the sum differs from that of the operand and 0 otherwise; each with PC advanced by two and two reads. An
index of 0 never costs a cycle, base 0xFFFF with index 1 gives 0x0000 with penalty 1, and base 0x00FF with index 1
gives 0x0100 with penalty 1. (R96, R100, R101.) -/
def Obligations.AbsoluteModesIndexAndReportPageCross : Prop :=
  (∀ s : State, s.readService s.pc = .ram → s.readService (s.pc + 1) = .ram →
      let base := concat (s.peek (s.pc + 1)) (s.peek s.pc)
      let sum := fun (index : Byte) => (BitVec.ofNat 16 (base.toNat + index.toNat) : Addr)
      let t : State := { s with pc := s.pc + 2, accesses := s.accesses ++ [.read s.pc, .read (s.pc + 1)] }
      resolve .abs s = .ok (some ⟨base, 0, t⟩) ∧
      resolve .abx s = .ok (some ⟨sum s.x, if hi base = hi (sum s.x) then 0 else 1, t⟩) ∧
      resolve .aby s = .ok (some ⟨sum s.y, if hi base = hi (sum s.y) then 0 else 1, t⟩)) ∧
    (∀ (w : Addr) (s : State), (indexed w 0 s).penalty = 0 ∧
      (indexed 0xFFFF 1 s).ea = 0x0000 ∧ (indexed 0xFFFF 1 s).penalty = 1 ∧
      (indexed 0x00FF 1 s).ea = 0x0100 ∧ (indexed 0x00FF 1 s).penalty = 1)

/-- For every state whose operand cells are plain, with PC at the first operand byte and ptr the 16-bit operand: if the
cell at ptr and the cell at the address with ptr's high byte and ptr's low byte plus one modulo 256 are plain, the
mode IND gives the target whose low byte is read from the first and whose high byte from the second, in that order,
with penalty 0; the second address is ptr plus 1 unless ptr ends in 0xFF, and then it is the start of ptr's page.
(R97.) -/
def Obligations.IndirectModeKeepsThePointerPage : Prop :=
  ∀ s : State, s.readService s.pc = .ram → s.readService (s.pc + 1) = .ram →
    let ptr := concat (s.peek (s.pc + 1)) (s.peek s.pc)
    let second : Addr := (ptr &&& 0xFF00) ||| ((ptr + 1) &&& 0x00FF)
    (s.readService ptr = .ram → s.readService second = .ram →
      resolve .ind s = .ok (some ⟨concat (s.peek second) (s.peek ptr), 0,
        { s with
          pc := s.pc + 2
          accesses := s.accesses ++ [.read s.pc, .read (s.pc + 1), .read ptr, .read second] }⟩)) ∧
    (lo ptr ≠ 0xFF → second = ptr + 1) ∧
    (lo ptr = 0xFF → second = ptr &&& 0xFF00)

/-- For every state whose operand cell is plain, with PC at the operand byte and p the operand plus X modulo 256: if the
page-0 cells at p and at p plus 1 modulo 256 are plain, the mode IZX gives the address whose low byte is at p and
whose high byte is at p plus 1 modulo 256, read in that order, with penalty 0 and PC advanced by one; for p = 0xFF
the two cells are 0x00FF and 0x0000. (R98.) -/
def Obligations.IndexedIndirectPointerWrapsInPageZero : Prop :=
  ∀ s : State, s.readService s.pc = .ram →
    let p : Byte := s.peek s.pc + s.x
    s.readService (zext16 p) = .ram → s.readService (zext16 (p + 1)) = .ram →
    resolve .izx s = .ok (some ⟨concat (s.peek (zext16 (p + 1))) (s.peek (zext16 p)), 0,
      { s with
        pc := s.pc + 1
        accesses := s.accesses ++ [.read s.pc, .read (zext16 p), .read (zext16 (p + 1))] }⟩) ∧
    (p = 0xFF → zext16 p = 0x00FF ∧ zext16 (p + 1) = 0x0000)

/-- For every state whose operand cell and pointer cells are plain, with PC at the operand byte b: the mode IZY gives
the pointer at b and b plus 1 modulo 256 in page 0, plus Y modulo 65536, with penalty 1 if the high byte changes and
0 otherwise. That the pointer wraps in page 0 is the spec's decision D10 (log 15). (40_step_and_addressing.md
section 2, 92_eei_decisions.md D10.) -/
def Obligations.IndirectIndexedAddsYToAPageZeroPointer : Prop :=
  ∀ s : State, s.readService s.pc = .ram →
    let b := s.peek s.pc
    s.readService (zext16 b) = .ram → s.readService (zext16 (b + 1)) = .ram →
    let base := concat (s.peek (zext16 (b + 1))) (s.peek (zext16 b))
    let ea : Addr := BitVec.ofNat 16 (base.toNat + s.y.toNat)
    resolve .izy s = .ok (some ⟨ea, if hi base = hi ea then 0 else 1,
      { s with
        pc := s.pc + 1
        accesses := s.accesses ++ [.read s.pc, .read (zext16 b), .read (zext16 (b + 1))] }⟩)

/-- For every state whose cell at PC is plain, with PC at the operand byte: the mode REL gives PC plus 1 plus the
operand read as a number from -128 to 127, modulo 65536, with penalty 1 if its high byte differs from that of PC
plus 1 and 0 otherwise, and does not write the target to PC. The page compared is the spec's decision D17.
(40_step_and_addressing.md section 2, 92_eei_decisions.md D17.) -/
def Obligations.RelativeModeAddsASignedOffset : Prop :=
  ∀ s : State, s.readService s.pc = .ram →
    let target : Addr := BitVec.ofInt 16 ((s.pc + 1).toNat + (s.peek s.pc).toInt)
    resolve .rel s = .ok (some ⟨target, if hi (s.pc + 1) = hi target then 0 else 1, { s with pc := s.pc + 1, accesses := s.accesses ++ [.read s.pc] }⟩)

/-- For every state: the modes IMP and ACC give no effective address and no state change; IMM gives the PC it is entered
with, penalty 0 and PC advanced by one, and reads nothing itself. These three modes are the spec's decision D16.
(40_step_and_addressing.md section 2, 92_eei_decisions.md D16.) -/
def Obligations.OperandlessModesReadNothing : Prop :=
  ∀ s : State, resolve .imp s = .ok none ∧ resolve .acc s = .ok none ∧
    resolve .imm s = .ok (some ⟨s.pc, 0, { s with pc := s.pc + 1 }⟩)

/-- For each of the 15 loads from memory, with every operand and on every platform: if its mode gives an address and the
platform services the read of it, exec is the next state with the byte in the destination register, Z and N from it,
and the base cost plus the mode's penalty returned; where the mode or the read raises a fault, exec is that fault.
Whenever one of the 18 loads gives a next state, the other two registers, SP, every other flag and all of memory are
as before. On the default platform each completes. The three value cases of Z and N are those of the byte loaded.
(R110.) -/
def Obligations.LoadsFollowTheCommonRule : Prop :=
  ∀ (s : State) (b : Byte) (w : Addr),
    (∀ rf ∈ loadsAny s b w,
      (∀ m v u, rf.2.resolve = .ok m → memRead m.ea m.state = .ok (v, u) →
        exec rf.2.instr s = .next { u.setReg rf.1 v with
          p := setZNByte v s.p, cycles := some (s.baseCycles rf.2.opcode rf.2.cycles + m.penalty) }) ∧
      (∀ f, rf.2.resolve = .error f → exec rf.2.instr s = .fault f) ∧
      (∀ m f, rf.2.resolve = .ok m → memRead m.ea m.state = .error f → exec rf.2.instr s = .fault f) ∧
      (s.config.platform.windows = [] → ∃ t, exec rf.2.instr s = .next t)) ∧
    (∀ ri ∈ (loadsAny s b w).map (fun rf => (rf.1, rf.2.instr)) ++ (immediateLoads b).map (fun r => (r.1, r.2.1)),
      ∀ t, exec ri.2 s = .next t → SameButRegAndZN ri.1 s t ∧
        (t.getReg ri.1 = 0x00 → getFlag .zero t.p = true ∧ getFlag .negative t.p = false) ∧
        (0x80 ≤ (t.getReg ri.1).toNat → getFlag .zero t.p = false ∧ getFlag .negative t.p = true) ∧
        (0x01 ≤ (t.getReg ri.1).toNat → (t.getReg ri.1).toNat ≤ 0x7F →
          getFlag .zero t.p = false ∧ getFlag .negative t.p = false))

/-- For each of the 15 loads from memory and every operand, on a state whose pointer cells and data cell are plain: exec
is the state with the destination register holding the cell at the effective address, Z and N from it, the base cost
plus the page-cross cycle returned, and the pointer reads and the data read appended to the accesses in that order;
nothing else differs. For the three immediate loads: the operand byte in the register, Z and N from it, the base
cost returned, no access. The access order is D11 and the costs are D15 (logs 12 and 16). (41_load.md, 20_memory.md
section 5, 70_reset_and_hazards.md section 5.) -/
def Obligations.LoadsFromPlainCells : Prop :=
  ∀ (s : State) (b : Byte) (w : Addr),
    (∀ rf ∈ loadForms s b w, (∀ a ∈ rf.2.pointers ++ [rf.2.ea], s.readService a = .ram) →
      exec rf.2.instr s = .next { s.setReg rf.1 (s.peek rf.2.ea) with
        p := setZNByte (s.peek rf.2.ea) s.p
        cycles := some (s.baseCycles rf.2.opcode rf.2.cycles + rf.2.penalty)
        accesses := s.accesses ++ (rf.2.pointers ++ [rf.2.ea]).map .read }) ∧
    (∀ r ∈ immediateLoads b, exec r.2.1 s = .next { s.setReg r.1 b with
        p := setZNByte b s.p
        cycles := some (s.baseCycles r.2.2.1 r.2.2.2) })

/-- For each of the 13 stores, with every operand and on every platform: if its mode gives an address and the platform
services the write of the register there, exec is the state after that write with the count returned; where the mode
or the write raises a fault, exec is that fault. Whenever exec gives a next state, every register, the whole of P,
the latch and the parameters are as before, and so is every cell but the one that the address the mode gives stands
for on the platform (that address itself but in a mirror window, log 5). That a store writes no flag is the spec's
own derivation. (42_store.md, 10_state.md section 4.) -/
def Obligations.StoresFollowTheCommonRule : Prop :=
  ∀ (s : State) (b : Byte) (w : Addr), ∀ vf ∈ storesAny s b w,
    (∀ m u, vf.2.resolve = .ok m → memWrite m.ea vf.1 m.state = .ok u →
      exec vf.2.instr s = .next { u with
        cycles := some (s.baseCycles vf.2.opcode vf.2.cycles +
          if s.config.penaltyOnWrites then m.penalty else 0) }) ∧
    (∀ f, vf.2.resolve = .error f → exec vf.2.instr s = .fault f) ∧
    (∀ m f, vf.2.resolve = .ok m → memWrite m.ea vf.1 m.state = .error f → exec vf.2.instr s = .fault f) ∧
    (∀ t, exec vf.2.instr s = .next t → SameRegisters s t ∧
      ∀ m, vf.2.resolve = .ok m → ∀ a, a ≠ s.writeCell m.ea → t.peek a = s.peek a)

/-- For each of the 13 stores and every operand, on a state whose pointer cells are plain for reads and whose target
cell is plain for writes: exec is the state with that one cell set to the register's value, the base cost returned
(plus the page-cross cycle only with PENALTY_ON_WRITES), and the pointer reads and the write appended to the
accesses in that order; nothing else differs. The access order is D11 and the costs are D12 and D15 (logs 4, 12 and
16). (42_store.md, 20_memory.md section 5, 70_reset_and_hazards.md section 5.) -/
def Obligations.StoresToPlainCells : Prop :=
  ∀ (s : State) (b : Byte) (w : Addr), ∀ vf ∈ storeForms s b w,
    (∀ a ∈ vf.2.pointers, s.readService a = .ram) → s.writeService vf.2.ea = .ram →
    exec vf.2.instr s = .next { s.poke vf.2.ea vf.1 with
      cycles := some (s.baseCycles vf.2.opcode vf.2.cycles + if s.config.penaltyOnWrites then vf.2.penalty else 0)
      accesses := s.accesses ++ vf.2.pointers.map .read ++ [.write vf.2.ea vf.1] }

/-- For every state: each of the five transfers gives the state with the source's value in the destination register, Z
and N from that value and the base cost returned, and nothing else changed; no memory is accessed. The costs are D15
(log 12). (43_transfer.md, 92_eei_decisions.md D15.) -/
def Obligations.TransfersCopyAndSetFlags : Prop :=
  ∀ s : State, ∀ r ∈ transfers s, exec r.2.2.1 s = .next { s.setReg r.1 r.2.1 with
    p := setZNByte r.2.1 s.p
    cycles := some (s.baseCycles r.2.2.2.1 r.2.2.2.2) }

/-- For each of the transfers TAX, TXA, TAY, TYA and TSX and every state: exec gives a next state in which the
destination holds the source's value from before, Z and N are those of that value, the source and every other
register, every other flag and all of memory are as before, the same accesses have been made, and the count returned
is the machine's own entry for the opcode, else 2; so it is 2 on a machine that has no entry of its own. The form of
such entries is log 4. TXS is the exception the rule names and has its own statement. (R150.) -/
def Obligations.TransfersLeaveTheRestAlone : Prop :=
  ∀ s : State, ∀ r ∈ transfers s, ∃ t, exec r.2.2.1 s = .next t ∧ t.getReg r.1 = r.2.1 ∧
    getFlag .zero t.p = decide (r.2.1 = 0) ∧ getFlag .negative t.p = r.2.1.getLsbD 7 ∧
    SameButRegAndZN r.1 s t ∧ t.mem = s.mem ∧ t.accesses = s.accesses ∧
    t.cycles = some (s.baseCycles r.2.2.2.1 2) ∧ (s.config.baseCycles = [] → t.cycles = some 2)

/-- For every state: TXS gives the state with SP equal to X and the base cost returned, and P unchanged if the parameter
TXS_UPDATES_NZ is false, or with Z and N from X if it is true; nothing else changes. The parameter and its default
are the spec's decision D8 (log 4). (43_transfer.md, 90_conflicts.md C2, 92_eei_decisions.md D8.) -/
def Obligations.TxsSetsSpAndFlagsOnlyByParameter : Prop :=
  ∀ s : State, exec .txs s = .next { s with
    sp := s.x
    p := if s.config.txsUpdatesNZ then setZNByte s.x s.p else s.p
    cycles := some (s.baseCycles 0x9A 2) }

/-- For every state and byte: the address written is 0x0100 plus SP, in page 1; if the platform services the write, push
gives the state after it with SP minus one modulo 256; on a plain cell that is the cell set and nothing else; with
SP at 0x00 the cell is 0x0100 and SP becomes 0xFF, so that the next push goes to 0x01FF; and if the write raises
MemoryUnserviceable, by a window or by a device, push raises it with SP as it was. (R160.) -/
def Obligations.PushWritesThenDecrements : Prop :=
  ∀ (s : State) (v : Byte),
    (stackAddr s.sp).toNat = 0x0100 + s.sp.toNat ∧
    (∀ u, memWrite (stackAddr s.sp) v s = .ok u → push v s = .ok { u with sp := s.sp - 1 }) ∧
    (s.writeService (stackAddr s.sp) = .ram → push v s = .ok { s.poke (stackAddr s.sp) v with
      sp := s.sp - 1, accesses := s.accesses ++ [.write (stackAddr s.sp) v] }) ∧
    (s.sp = 0x00 → stackAddr s.sp = 0x0100 ∧ ∀ u, push v s = .ok u → u.sp = 0xFF ∧ stackAddr u.sp = 0x01FF) ∧
    (∀ f, memWrite (stackAddr s.sp) v s = .error f → push v s = .error f ∧
      ∃ u, f = .memoryUnserviceable (.write (stackAddr s.sp) v) u ∧ u.sp = s.sp)

/-- For every state: if the cell at 0x0100 plus SP plus one modulo 256 is plain, pull gives its byte and the state with
SP incremented, every cell unchanged; with SP at 0xFF the cell is 0x0100; on every platform pull is the read of that
address from the state with SP incremented: if it is serviced pull gives its answer and every cell is as it was, and
if it raises MemoryUnserviceable, by a window or by a device, pull raises it with SP already incremented. (R161.) -/
def Obligations.PullIncrementsThenReads : Prop :=
  ∀ s : State,
    (s.readService (stackAddr (s.sp + 1)) = .ram → pull s = .ok (s.peek (stackAddr (s.sp + 1)),
      { s with sp := s.sp + 1, accesses := s.accesses ++ [.read (stackAddr (s.sp + 1))] })) ∧
    (s.sp = 0xFF → s.sp + 1 = 0x00 ∧ stackAddr (s.sp + 1) = 0x0100) ∧
    (∀ v u, memRead (stackAddr (s.sp + 1)) { s with sp := s.sp + 1 } = .ok (v, u) → pull s = .ok (v, u)) ∧
    (∀ f, memRead (stackAddr (s.sp + 1)) { s with sp := s.sp + 1 } = .error f → pull s = .error f ∧
      ∃ u, f = .memoryUnserviceable (.read (stackAddr (s.sp + 1))) u ∧ u.sp = s.sp + 1) ∧
    (∀ v u, pull s = .ok (v, u) → u.sp = s.sp + 1 ∧ ∀ a, u.peek a = s.peek a)

/-- For every state on a platform whose page-1 cells are plain, with canonical memory: after a push of v the byte is at
0x0100 plus SP plus one modulo 256, and a pull then gives v with SP as it was, for every v and SP; a push writes at
the old SP and a pull reads at the new one. After 256 pushes of any bytes SP is back at its starting value, the k-th
byte pushed is in the cell of page 1 at the starting SP minus k modulo 256, so that every cell of the page has been
overwritten, and every cell outside page 1 is as before. (R166.) -/
def Obligations.StackLawsHoldOnPlainCells : Prop :=
  ∀ s : State, Memory.wf s.mem →
    (∀ sp : Byte, s.readService (stackAddr sp) = .ram ∧ s.writeService (stackAddr sp) = .ram) →
    (∀ v : Byte, ∃ t, push v s = .ok t ∧ t.peek (stackAddr (t.sp + 1)) = v ∧ t.peek (stackAddr s.sp) = v ∧
      t.sp = s.sp - 1 ∧ ∃ u, pull t = .ok (v, u) ∧ u.sp = s.sp) ∧
    (∀ vs : List Byte, vs.length = 256 → ∃ t, pushAll vs s = .ok t ∧ t.sp = s.sp ∧
      (∀ k : Nat, k < 256 → vs[k]? = some (t.peek (stackAddr (s.sp - BitVec.ofNat 8 k)))) ∧
      (∀ a : Addr, hi a ≠ 0x01 → t.peek a = s.peek a))

/-- For every state whose stack cell is plain for writes: PHA gives the state with A in the cell at 0x0100 plus SP, SP
minus one, the base cost returned and the write appended to the accesses; PHP the same with P as it reads (bit 5 at
1) OR the parameter PHP_PUSH_OR_MASK. Nothing else changes, P included. The parameter and its default are D6, the
costs D15 (logs 4 and 12). (44_stack.md section 2, 92_eei_decisions.md D6, 92_eei_decisions.md D15.) -/
def Obligations.PushesStoreTheRegister : Prop :=
  ∀ s : State, s.writeService (stackAddr s.sp) = .ram →
    exec .pha s = .next { s.poke (stackAddr s.sp) s.a with
      sp := s.sp - 1
      cycles := some (s.baseCycles 0x48 3)
      accesses := s.accesses ++ [.write (stackAddr s.sp) s.a] } ∧
    exec .php s = .next { s.poke (stackAddr s.sp) (s.p ||| 0x20 ||| s.config.phpPushOrMask) with
      sp := s.sp - 1
      cycles := some (s.baseCycles 0x08 3)
      accesses := s.accesses ++ [.write (stackAddr s.sp) (s.p ||| 0x20 ||| s.config.phpPushOrMask)] }

/-- For every state whose stack cell above SP is plain for reads: PLA gives the state with that byte in A, Z and N from
it and SP plus one; PLP the state with P equal to that byte with bit 5 set, Break included, and SP plus one; each
with the base cost returned and the read appended to the accesses, and nothing else changed. The flags of PLA and
the loading of Break are the spec's decisions D9 and D7 (logs 13 and 14). (44_stack.md section 2,
92_eei_decisions.md D7, 92_eei_decisions.md D9.) -/
def Obligations.PullsLoadTheRegister : Prop :=
  ∀ s : State, s.readService (stackAddr (s.sp + 1)) = .ram →
    let v := s.peek (stackAddr (s.sp + 1))
    exec .pla s = .next { s with
      a := v
      p := setZNByte v s.p
      sp := s.sp + 1
      cycles := some (s.baseCycles 0x68 4)
      accesses := s.accesses ++ [.read (stackAddr (s.sp + 1))] } ∧
    exec .plp s = .next { s with
      p := v ||| 0x20
      sp := s.sp + 1
      cycles := some (s.baseCycles 0x28 4)
      accesses := s.accesses ++ [.read (stackAddr (s.sp + 1))] }

/-- Whenever exec gives a next state: PHA and PHP leave A, X, Y, PC, the whole of P, the latch and the parameters,
decrement SP, and leave every cell but the one that 0x0100 plus the old SP stands for on the platform (that address
itself but in a mirror window, log 5); PLA leaves X, Y, PC, every flag but Z and N, the latch, the parameters and
all of memory, and increments SP; PLP leaves A, X, Y, PC, the latch, the parameters and all of memory, and
increments SP. (44_stack.md section 2, 10_state.md section 4.) -/
def Obligations.StackInstructionsLeaveTheRestAlone : Prop :=
  ∀ s t : State,
    ((exec .pha s = .next t ∨ exec .php s = .next t) →
      SameRegisters { s with sp := s.sp - 1 } t ∧ ∀ a, a ≠ s.writeCell (stackAddr s.sp) → t.peek a = s.peek a) ∧
    (exec .pla s = .next t → SameButRegAndZN .a { s with sp := s.sp + 1 } t) ∧
    (exec .plp s = .next t → SameRegisters { s with sp := s.sp + 1, p := t.p } t ∧ ∀ a, t.peek a = s.peek a)

/-- For every state that meets the invariant and whose stack cell is plain: PHA followed by PLA completes and leaves A
and SP as they were, with Z and N from A and every other flag as before; and on a machine whose PHP_PUSH_OR_MASK is
0, PHP followed by PLP completes and leaves P and SP as they were. The mask is D6 and the loading of Break D7 (logs
4 and 13). (44_stack.md section 2, 92_eei_decisions.md D6, 92_eei_decisions.md D7.) -/
def Obligations.PushThenPullRestoresTheRegister : Prop :=
  ∀ s : State, s.Inv → s.readService (stackAddr s.sp) = .ram → s.writeService (stackAddr s.sp) = .ram →
    (∃ t u, exec .pha s = .next t ∧ exec .pla t = .next u ∧ u.a = s.a ∧ u.sp = s.sp ∧
      u.p = setZNByte s.a s.p) ∧
    (s.config.phpPushOrMask = 0 →
      ∃ t u, exec .php s = .next t ∧ exec .plp t = .next u ∧ u.p = s.p ∧ u.sp = s.sp)

/-- For every byte v: the left shift gives v times 2 modulo 256, bit by bit v moved up one place with bit 0 clear, and
v's bit 7 as the bit shifted out; the right shift gives v divided by 2 rounded down, bit by bit v moved down one
place with bit 7 clear, and v's bit 0; the values the two rules list come out; and after a right shift the
zero/negative update clears Negative. (R170, R171.) -/
def Obligations.ShiftUnitMovesOneBit : Prop :=
  (∀ v : Byte, (shiftLeft v).1.toNat = v.toNat * 2 % 256 ∧ (shiftLeft v).2 = v.getLsbD 7 ∧
      (shiftLeft v).1.getLsbD 0 = false ∧ (∀ k, k < 7 → (shiftLeft v).1.getLsbD (k + 1) = v.getLsbD k) ∧
      (shiftRight v).1.toNat = v.toNat / 2 ∧ (shiftRight v).2 = v.getLsbD 0 ∧
      (shiftRight v).1.getLsbD 7 = false ∧ (∀ k, k < 7 → (shiftRight v).1.getLsbD k = v.getLsbD (k + 1)) ∧
      ∀ p, getFlag .negative (setZNByte (shiftRight v).1 p) = false) ∧
    [0x80, 0x00, 0x01, 0x40, 0x81, 0xFF].map shiftLeft =
      [(0x00, true), (0x00, false), (0x02, false), (0x80, false), (0x02, true), (0xFE, true)] ∧
    [0x01, 0x80, 0x00, 0x02, 0x03, 0xFF].map shiftRight =
      [(0x00, true), (0x40, false), (0x00, false), (0x01, false), (0x01, true), (0x7F, true)]

/-- For every state: ASL A gives the state with A doubled modulo 256, C from the old bit 7, Z and N from the new A; LSR
A the state with A halved, C from the old bit 0, Z and N from the new A; each with the base cost returned and
nothing else changed: no other register, no other flag, no access. The costs are D15 (log 12). (45_shift.md section
1, 92_eei_decisions.md D15.) -/
def Obligations.AccumulatorShifts : Prop :=
  ∀ s : State,
    exec .aslAcc s = .next { s with
      a := BitVec.ofNat 8 (s.a.toNat * 2)
      p := setZNByte (BitVec.ofNat 8 (s.a.toNat * 2)) (setFlag .carry (s.a.getLsbD 7) s.p)
      cycles := some (s.baseCycles 0x0A 2) } ∧
    exec .lsrAcc s = .next { s with
      a := BitVec.ofNat 8 (s.a.toNat / 2)
      p := setZNByte (BitVec.ofNat 8 (s.a.toNat / 2)) (setFlag .carry (s.a.getLsbD 0) s.p)
      cycles := some (s.baseCycles 0x4A 2) }

/-- For each of the eight memory shifts and every operand, on a state whose target cell is plain for reads and writes:
exec is the state with that cell holding its shifted byte, C from the bit shifted out, Z and N from the result, the
base cost returned (plus the page-cross cycle only with PENALTY_ON_WRITES), and one read and one write at that
address appended to the accesses in that order; nothing else differs. That there is no write back of the old value
is D11; the costs are D12 and D15 (logs 4, 12 and 16). (45_shift.md section 1, 20_memory.md section 5,
92_eei_decisions.md D11.) -/
def Obligations.ShiftsOfPlainCells : Prop :=
  ∀ (s : State) (b : Byte) (w : Addr), ∀ uf ∈ shiftForms s b w,
    s.readService uf.2.ea = .ram → s.writeService uf.2.ea = .ram →
    let r := uf.1 (s.peek uf.2.ea)
    exec uf.2.instr s = .next { s.poke uf.2.ea r.1 with
      p := setZNByte r.1 (setFlag .carry r.2 s.p)
      cycles := some (s.baseCycles uf.2.opcode uf.2.cycles + if s.config.penaltyOnWrites then uf.2.penalty else 0)
      accesses := s.accesses ++ [.read uf.2.ea, .write uf.2.ea r.1] }

/-- Whenever one of the ten shifts gives a next state: X, Y, SP, PC, the flags I, D, B, U and V, the latch and the
parameters are as before. A memory form leaves A and every cell but the one that the address its mode gives stands
for on the platform (that address itself but in a mirror window, log 5); an accumulator form leaves all of memory.
(45_shift.md section 1.) -/
def Obligations.ShiftsLeaveTheRestAlone : Prop :=
  ∀ (s t : State) (b : Byte) (w : Addr),
    (∀ uf ∈ shiftsAny s b w, exec uf.2.instr s = .next t →
      SameRegisters { s with p := t.p } t ∧
      (∀ f ∈ [Flag.interruptDisable, .decimal, .brk, .unused, .overflow], getFlag f t.p = getFlag f s.p) ∧
      ∀ m, uf.2.resolve = .ok m → ∀ a, a ≠ s.writeCell m.ea → t.peek a = s.peek a) ∧
    (∀ i ∈ [Instr.aslAcc, .lsrAcc], exec i s = .next t →
      SameRegisters { s with a := t.a, p := t.p } t ∧
      (∀ f ∈ [Flag.interruptDisable, .decimal, .brk, .unused, .overflow], getFlag f t.p = getFlag f s.p) ∧
      ∀ a, t.peek a = s.peek a)

/-- For every state, address and byte. A plain window reads and sets the cell, a mirror window the cell its address
stands for, a fixed window gives one byte, and a write that ROM ignores changes nothing. A listed device answers by
the platform's tables and a free device by the free functions, from the devices' state: a byte and the next state,
the next state for a write, or Unserviceable; plain cells stay. An unserviceable window, and the answer
Unserviceable, are MemoryUnserviceable with the access recorded and the state as it was but for the latch. A
serviced access is appended to the accesses. Every error of an access is that fault. For every number of states k
and every pair of functions on them as the spec gives Platform, the platform built from the two answers each access
by just those functions. Windows, tables and free answers are log 5, the latch D13 and D19 (log 6), the list of
accesses log 8. (20_memory.md section 1, 20_memory.md section 3, 60_exceptions.md section 1, 42_store.md,
92_eei_decisions.md D14, 93_implementation_defined.md U15.) -/
def Obligations.MemoryInterfaceAnswersByThePlatform : Prop :=
  ∀ (s : State) (a : Addr) (v : Byte),
    let readFault := Fault.memoryUnserviceable (.read a) { s with halted := some (.memoryUnserviceable (.read a)) }
    let writeFault := Fault.memoryUnserviceable (.write a v)
      { s with halted := some (.memoryUnserviceable (.write a v)) }
    let readAnswer := fun (r : Option (Byte × Nat)) => match r with
      | some (x, d) => (.ok (x, { s with device := d, accesses := s.accesses ++ [.read a] }) : Res (Byte × State))
      | none => .error readFault
    let writeAnswer := fun (r : Option Nat) => match r with
      | some d => (.ok { s with device := d, accesses := s.accesses ++ [.write a v] } : Res State)
      | none => .error writeFault
    (s.readService a = .ram → memRead a s = .ok (s.peek a, { s with accesses := s.accesses ++ [.read a] })) ∧
    (s.writeService a = .ram → s.writeCell a = a ∧
      memWrite a v s = .ok { s.poke a v with accesses := s.accesses ++ [.write a v] }) ∧
    (∀ first cell period, s.readService a = .mirror first cell period → memRead a s =
      .ok (s.peek (cell + BitVec.ofNat 16 ((a - first).toNat % period)),
        { s with accesses := s.accesses ++ [.read a] })) ∧
    (∀ first cell period, s.writeService a = .mirror first cell period →
      s.writeCell a = cell + BitVec.ofNat 16 ((a - first).toNat % period) ∧
      memWrite a v s = .ok { s.poke (s.writeCell a) v with accesses := s.accesses ++ [.write a v] }) ∧
    (∀ x, s.readService a = .fixed x → memRead a s = .ok (x, { s with accesses := s.accesses ++ [.read a] })) ∧
    (s.writeService a = .ignored → memWrite a v s = .ok { s with accesses := s.accesses ++ [.write a v] }) ∧
    (s.readService a = .listed → memRead a s = readAnswer (s.config.platform.reads.lookup (s.device, a)).join) ∧
    (s.writeService a = .listed → memWrite a v s =
      writeAnswer (s.config.platform.writes.lookup (s.device, a, v)).join) ∧
    (s.readService a = .device → memRead a s = readAnswer (Config.deviceRead s.device a)) ∧
    (s.writeService a = .device → memWrite a v s = writeAnswer (Config.deviceWrite s.device a v)) ∧
    (s.readService a = .unserviceable → memRead a s = .error readFault) ∧
    (s.writeService a = .unserviceable → memWrite a v s = .error writeFault) ∧
    (∀ f, memRead a s = .error f → f = readFault) ∧
    (∀ f, memWrite a v s = .error f → f = writeFault) ∧
    (∀ (k : Nat) (read : Fin k → Addr → Option (Byte × Fin k)) (write : Fin k → Addr → Byte → Option (Fin k))
        (m : Fin k), s.config.platform = Platform.ofFunctions k read write → s.device = m.val →
      memRead a s = readAnswer ((read m a).map fun r => (r.1, r.2.val)) ∧
      memWrite a v s = writeAnswer ((write m a v).map Fin.val))

/-- If no other agent acts between the two steps (D21, log 19): for every state on the default platform with canonical
memory (logs 5 and 2) that is not halted, if the bytes at PC decode to one of the 13 stores, the eight memory
shifts, PHA or PHP, with any operand, the step completes, PC is past it, and the cell it addresses holds the byte it
writes, every other cell being as before. If the three bytes from the new PC on, with that cell replaced, decode to
an instruction j of any length, the next step is exec of j with PC past it and the reads of its bytes as the
accesses made (logs 7, 8 and 16). (20_memory.md section 5, 10_state.md section 5, 92_eei_decisions.md D21.) -/
def Obligations.WrittenBytesAreFetchedByTheNextStep : Prop :=
  ∀ (s : State) (b : Byte) (w : Addr) (rest : List Byte), ∀ r ∈ writingForms s b w,
    s.halted = none → s.config.platform.windows = [] → Memory.wf s.mem →
    decode [s.peek s.pc, s.peek (s.pc + 1), s.peek (s.pc + 2)] = .ok (r.1, rest) →
    let q := s.pc + BitVec.ofNat 16 r.1.length
    let cell := fun (a : Addr) => if a = r.2.1 then r.2.2 else s.peek a
    ∃ t, step s = .next t ∧ t.pc = q ∧ (∀ a, t.peek a = cell a) ∧
      ∀ (j : Instr) (rest' : List Byte), decode [cell q, cell (q + 1), cell (q + 2)] = .ok (j, rest') →
        step t = exec j { t with
          pc := q + BitVec.ofNat 16 j.length
          cycles := none
          accesses := (List.range j.length).map (fun k => Access.read (q + BitVec.ofNat 16 k)) }
end

