-- ==== Sys2Proof/Laws/Flags.lean ====
section
/-! SUPPORT. The small lemmas of the status register: what each operation does to each bit. -/

namespace Sys2Proof.Machine

theorem getFlag_eq_getLsbD (f : Flag) (p : Byte) : getFlag f p = p.getLsbD f.bit := by
  revert p; cases f <;> decide

theorem getFlag_setFlag_same (f : Flag) (v : Bool) (p : Byte) (h : f ≠ .unused) : getFlag f (setFlag f v p) = v := by
  revert p; cases v <;> cases f <;> first | decide | exact absurd rfl h

theorem getFlag_setFlag_other {f g : Flag} (v : Bool) (p : Byte) (h : g ≠ f) :
    getFlag g (setFlag f v p) = getFlag g p := by
  revert p; cases v <;> cases f <;> cases g <;> first | decide | exact absurd rfl h

/-- Clearing Unused has no effect (90_conflicts.md C9). -/
theorem setFlag_unused_false (p : Byte) : setFlag .unused false p = p := by simp [setFlag]

theorem getFlag_zero_setZNByte (v p : Byte) : getFlag .zero (setZNByte v p) = (v == 0) := by
  rw [setZNByte, getFlag_setFlag_other _ _ (by decide), getFlag_setFlag_same _ _ _ (by decide)]

theorem getFlag_negative_setZNByte (v p : Byte) : getFlag .negative (setZNByte v p) = v.getLsbD 7 := by
  rw [setZNByte, getFlag_setFlag_same _ _ _ (by decide)]

theorem getFlag_setZNByte_other (v p : Byte) {f : Flag} (hz : f ≠ .zero) (hn : f ≠ .negative) :
    getFlag f (setZNByte v p) = getFlag f p := by
  rw [setZNByte, getFlag_setFlag_other _ _ hn, getFlag_setFlag_other _ _ hz]

/-- No flag update clears Unused. -/
theorem unused_setFlag (f : Flag) (v : Bool) (p : Byte) (h : p.getLsbD 5 = true) : (setFlag f v p).getLsbD 5 = true := by
  revert p; cases v <;> cases f <;> decide

theorem unused_setZNByte (v p : Byte) (h : p.getLsbD 5 = true) : (setZNByte v p).getLsbD 5 = true :=
  unused_setFlag _ _ _ (unused_setFlag _ _ _ h)

theorem unused_or_mask (v : Byte) : (v ||| Flag.unused.mask).getLsbD 5 = true := by
  revert v; decide

/-- P reads as it stands where Unused is 1, which it is in every state a run reaches. -/
theorem status_eq (s : State) (h : s.p.getLsbD 5 = true) : s.status = s.p := by
  have key : ∀ p : Byte, p.getLsbD 5 = true → p ||| Flag.unused.mask = p := by decide
  exact key s.p h

end Sys2Proof.Machine
end

