-- ==== Sys2Proof/Laws/Memory.lean ====
section
/-! SUPPORT. The laws of memory: a read after a write, and the canonical form kept by every operation. -/

namespace Sys2Proof.Machine

/-- A cell below every listed address is unlisted. -/
theorem Memory.read_of_lt (m : Memory) (a : Nat) (h : ∀ c ∈ m, a < c.1) : m.read a = unlisted := by
  induction m with
  | nil => rfl
  | cons c m ih =>
    obtain ⟨k, u⟩ := c
    have hk : a < k := h (k, u) (by simp)
    simp only [Memory.read, if_neg (Nat.ne_of_gt hk)]
    exact ih fun d hd => h d (by simp [hd])

theorem Memory.read_write_other (m : Memory) {a b : Nat} (v : Byte) (h : b ≠ a) : (m.write a v).read b = m.read b := by
  induction m with
  | nil =>
    simp only [Memory.write]
    split <;> simp [Memory.read, h.symm]
  | cons c m ih =>
    obtain ⟨k, u⟩ := c
    simp only [Memory.write]
    split
    · simp only [Memory.read, ih]
    · by_cases hk : k = a
      · subst hk
        simp only [if_true]
        split <;> simp [Memory.read, h.symm]
      · simp only [if_neg hk]
        split <;> simp [Memory.read, h.symm]

theorem Memory.read_write_same (m : Memory) (a : Nat) (v : Byte) (hm : m.wf) : (m.write a v).read a = v := by
  induction m with
  | nil =>
    simp only [Memory.write]
    split
    · simp [Memory.read, *]
    · simp [Memory.read]
  | cons c m ih =>
    obtain ⟨k, u⟩ := c
    obtain ⟨hs, hv⟩ := hm
    obtain ⟨hlt, hs⟩ := List.pairwise_cons.mp hs
    have ih := ih ⟨hs, fun d hd => hv d (by simp [hd])⟩
    simp only [Memory.write]
    split
    · next hk => simp only [Memory.read, if_neg (Nat.ne_of_lt hk), ih]
    · next hk =>
      split
      · next hu =>
        subst hu
        apply Memory.read_of_lt
        intro d hd
        split at hd
        · next hka => exact hka ▸ hlt d hd
        · next hka =>
          obtain rfl | hd := List.mem_cons.mp hd
          · show a < k
            omega
          · have : k < d.1 := hlt d hd
            omega
      · simp [Memory.read]

/-- Every address listed after a write was listed before, or is the one written. -/
theorem Memory.mem_write (m : Memory) (a : Nat) (v : Byte) {c : Host.Cell} (h : c ∈ m.write a v) :
    c ∈ m ∨ (c = (a, v) ∧ v ≠ unlisted) := by
  induction m with
  | nil =>
    simp only [Memory.write] at h
    split at h <;> simp_all
  | cons d m ih =>
    obtain ⟨k, u⟩ := d
    simp only [Memory.write] at h
    split at h
    · obtain rfl | h := List.mem_cons.mp h
      · exact .inl (by simp)
      · exact (ih h).imp_left fun h => by simp [h]
    · split at h <;> split at h <;> simp_all <;> tauto

/-- Every memory operation keeps the canonical form: `write` is the only one that changes a memory. -/
theorem Memory.wf_write (m : Memory) {a : Nat} (v : Byte) (ha : a < 65536) (hm : m.wf) : (m.write a v).wf := by
  obtain ⟨hs, hv⟩ := hm
  refine ⟨?_, fun c hc => ?_⟩
  · clear hv
    induction m with
    | nil =>
      simp only [Memory.write]
      split <;> simp
    | cons c m ih =>
      obtain ⟨k, u⟩ := c
      obtain ⟨hlt, hs'⟩ := List.pairwise_cons.mp hs
      simp only [Memory.write]
      split
      · next hk =>
        refine List.pairwise_cons.mpr ⟨fun d hd => ?_, ih hs'⟩
        obtain hd | ⟨rfl, -⟩ := Memory.mem_write m a v hd
        · exact hlt d hd
        · exact hk
      · next hk =>
        by_cases hka : k = a
        · subst hka
          simp only [if_true]
          split
          · exact hs'
          · exact List.pairwise_cons.mpr ⟨hlt, hs'⟩
        · simp only [if_neg hka]
          split
          · exact hs
          · refine List.pairwise_cons.mpr ⟨fun d hd => ?_, hs⟩
            obtain rfl | hd := List.mem_cons.mp hd
            · show a < k
              omega
            · have : k < d.1 := hlt d hd
              show a < d.1
              omega
  · obtain hc | ⟨rfl, hne⟩ := Memory.mem_write m a v hc
    · exact hv c hc
    · exact ⟨ha, hne⟩

theorem Memory.wf_nil : Memory.wf [] := by simp [Memory.wf]

end Sys2Proof.Machine
end

