-- ==== Sys2Proof/Laws/State.lean ====
section
/-! SUPPORT. What each update of State does to each field: one lemma per field per update, so that no proof unfolds a
record update. -/

namespace Sys2Proof.Machine

section poke
variable (s : State) (ad : Addr) (v : Byte)

@[simp] theorem State.poke_a : (s.poke ad v).a = s.a := rfl
@[simp] theorem State.poke_x : (s.poke ad v).x = s.x := rfl
@[simp] theorem State.poke_y : (s.poke ad v).y = s.y := rfl
@[simp] theorem State.poke_pc : (s.poke ad v).pc = s.pc := rfl
@[simp] theorem State.poke_sp : (s.poke ad v).sp = s.sp := rfl
@[simp] theorem State.poke_p : (s.poke ad v).p = s.p := rfl
@[simp] theorem State.poke_halted : (s.poke ad v).halted = s.halted := rfl
@[simp] theorem State.poke_mem : (s.poke ad v).mem = Memory.write s.mem ad.toNat v := rfl
@[simp] theorem State.poke_device : (s.poke ad v).device = s.device := rfl
@[simp] theorem State.poke_config : (s.poke ad v).config = s.config := rfl
@[simp] theorem State.poke_cycles : (s.poke ad v).cycles = s.cycles := rfl
@[simp] theorem State.poke_accesses : (s.poke ad v).accesses = s.accesses := rfl

end poke

section log
variable (s : State) (e : Access)

@[simp] theorem State.log_a : (s.log e).a = s.a := rfl
@[simp] theorem State.log_x : (s.log e).x = s.x := rfl
@[simp] theorem State.log_y : (s.log e).y = s.y := rfl
@[simp] theorem State.log_pc : (s.log e).pc = s.pc := rfl
@[simp] theorem State.log_sp : (s.log e).sp = s.sp := rfl
@[simp] theorem State.log_p : (s.log e).p = s.p := rfl
@[simp] theorem State.log_halted : (s.log e).halted = s.halted := rfl
@[simp] theorem State.log_mem : (s.log e).mem = s.mem := rfl
@[simp] theorem State.log_device : (s.log e).device = s.device := rfl
@[simp] theorem State.log_config : (s.log e).config = s.config := rfl
@[simp] theorem State.log_cycles : (s.log e).cycles = s.cycles := rfl
@[simp] theorem State.log_accesses : (s.log e).accesses = s.accesses ++ [e] := rfl

end log

section setStatus
variable (s : State) (v : Byte)

@[simp] theorem State.setStatus_a : (s.setStatus v).a = s.a := rfl
@[simp] theorem State.setStatus_x : (s.setStatus v).x = s.x := rfl
@[simp] theorem State.setStatus_y : (s.setStatus v).y = s.y := rfl
@[simp] theorem State.setStatus_pc : (s.setStatus v).pc = s.pc := rfl
@[simp] theorem State.setStatus_sp : (s.setStatus v).sp = s.sp := rfl
@[simp] theorem State.setStatus_p : (s.setStatus v).p = v ||| Flag.unused.mask := rfl
@[simp] theorem State.setStatus_halted : (s.setStatus v).halted = s.halted := rfl
@[simp] theorem State.setStatus_mem : (s.setStatus v).mem = s.mem := rfl
@[simp] theorem State.setStatus_device : (s.setStatus v).device = s.device := rfl
@[simp] theorem State.setStatus_config : (s.setStatus v).config = s.config := rfl
@[simp] theorem State.setStatus_cycles : (s.setStatus v).cycles = s.cycles := rfl
@[simp] theorem State.setStatus_accesses : (s.setStatus v).accesses = s.accesses := rfl

end setStatus

section setZN
variable (s : State) (v : Byte)

@[simp] theorem State.setZN_a : (s.setZN v).a = s.a := rfl
@[simp] theorem State.setZN_x : (s.setZN v).x = s.x := rfl
@[simp] theorem State.setZN_y : (s.setZN v).y = s.y := rfl
@[simp] theorem State.setZN_pc : (s.setZN v).pc = s.pc := rfl
@[simp] theorem State.setZN_sp : (s.setZN v).sp = s.sp := rfl
@[simp] theorem State.setZN_p : (s.setZN v).p = setZNByte v s.p := rfl
@[simp] theorem State.setZN_halted : (s.setZN v).halted = s.halted := rfl
@[simp] theorem State.setZN_mem : (s.setZN v).mem = s.mem := rfl
@[simp] theorem State.setZN_device : (s.setZN v).device = s.device := rfl
@[simp] theorem State.setZN_config : (s.setZN v).config = s.config := rfl
@[simp] theorem State.setZN_cycles : (s.setZN v).cycles = s.cycles := rfl
@[simp] theorem State.setZN_accesses : (s.setZN v).accesses = s.accesses := rfl

end setZN

section setCarry
variable (s : State) (c : Bool)

@[simp] theorem State.setCarry_a : (s.setCarry c).a = s.a := rfl
@[simp] theorem State.setCarry_x : (s.setCarry c).x = s.x := rfl
@[simp] theorem State.setCarry_y : (s.setCarry c).y = s.y := rfl
@[simp] theorem State.setCarry_pc : (s.setCarry c).pc = s.pc := rfl
@[simp] theorem State.setCarry_sp : (s.setCarry c).sp = s.sp := rfl
@[simp] theorem State.setCarry_p : (s.setCarry c).p = setFlag .carry c s.p := rfl
@[simp] theorem State.setCarry_halted : (s.setCarry c).halted = s.halted := rfl
@[simp] theorem State.setCarry_mem : (s.setCarry c).mem = s.mem := rfl
@[simp] theorem State.setCarry_device : (s.setCarry c).device = s.device := rfl
@[simp] theorem State.setCarry_config : (s.setCarry c).config = s.config := rfl
@[simp] theorem State.setCarry_cycles : (s.setCarry c).cycles = s.cycles := rfl
@[simp] theorem State.setCarry_accesses : (s.setCarry c).accesses = s.accesses := rfl

end setCarry

section setShiftFlags
variable (s : State) (rc : Byte × Bool)

@[simp] theorem State.setShiftFlags_a : (s.setShiftFlags rc).a = s.a := rfl
@[simp] theorem State.setShiftFlags_x : (s.setShiftFlags rc).x = s.x := rfl
@[simp] theorem State.setShiftFlags_y : (s.setShiftFlags rc).y = s.y := rfl
@[simp] theorem State.setShiftFlags_pc : (s.setShiftFlags rc).pc = s.pc := rfl
@[simp] theorem State.setShiftFlags_sp : (s.setShiftFlags rc).sp = s.sp := rfl
@[simp] theorem State.setShiftFlags_p : (s.setShiftFlags rc).p = setZNByte rc.1 (setFlag .carry rc.2 s.p) := rfl
@[simp] theorem State.setShiftFlags_halted : (s.setShiftFlags rc).halted = s.halted := rfl
@[simp] theorem State.setShiftFlags_mem : (s.setShiftFlags rc).mem = s.mem := rfl
@[simp] theorem State.setShiftFlags_device : (s.setShiftFlags rc).device = s.device := rfl
@[simp] theorem State.setShiftFlags_config : (s.setShiftFlags rc).config = s.config := rfl
@[simp] theorem State.setShiftFlags_cycles : (s.setShiftFlags rc).cycles = s.cycles := rfl
@[simp] theorem State.setShiftFlags_accesses : (s.setShiftFlags rc).accesses = s.accesses := rfl

end setShiftFlags

section returns
variable (s : State) (n : Nat)

@[simp] theorem State.returns_a : (s.returns n).a = s.a := rfl
@[simp] theorem State.returns_x : (s.returns n).x = s.x := rfl
@[simp] theorem State.returns_y : (s.returns n).y = s.y := rfl
@[simp] theorem State.returns_pc : (s.returns n).pc = s.pc := rfl
@[simp] theorem State.returns_sp : (s.returns n).sp = s.sp := rfl
@[simp] theorem State.returns_p : (s.returns n).p = s.p := rfl
@[simp] theorem State.returns_halted : (s.returns n).halted = s.halted := rfl
@[simp] theorem State.returns_mem : (s.returns n).mem = s.mem := rfl
@[simp] theorem State.returns_device : (s.returns n).device = s.device := rfl
@[simp] theorem State.returns_config : (s.returns n).config = s.config := rfl
@[simp] theorem State.returns_cycles : (s.returns n).cycles = some n := rfl
@[simp] theorem State.returns_accesses : (s.returns n).accesses = s.accesses := rfl

end returns

section begin
variable (s : State)

@[simp] theorem State.begin_a : s.begin.a = s.a := rfl
@[simp] theorem State.begin_x : s.begin.x = s.x := rfl
@[simp] theorem State.begin_y : s.begin.y = s.y := rfl
@[simp] theorem State.begin_pc : s.begin.pc = s.pc := rfl
@[simp] theorem State.begin_sp : s.begin.sp = s.sp := rfl
@[simp] theorem State.begin_p : s.begin.p = s.p := rfl
@[simp] theorem State.begin_halted : s.begin.halted = s.halted := rfl
@[simp] theorem State.begin_mem : s.begin.mem = s.mem := rfl
@[simp] theorem State.begin_device : s.begin.device = s.device := rfl
@[simp] theorem State.begin_config : s.begin.config = s.config := rfl
@[simp] theorem State.begin_cycles : s.begin.cycles = none := rfl
@[simp] theorem State.begin_accesses : s.begin.accesses = [] := rfl

end begin

section setReg
variable (s : State) (r : Reg) (v : Byte)

theorem State.setReg_a : (s.setReg r v).a = if r = .a then v else s.a := by cases r <;> rfl
theorem State.setReg_x : (s.setReg r v).x = if r = .x then v else s.x := by cases r <;> rfl
theorem State.setReg_y : (s.setReg r v).y = if r = .y then v else s.y := by cases r <;> rfl
@[simp] theorem State.setReg_pc : (s.setReg r v).pc = s.pc := by cases r <;> rfl
@[simp] theorem State.setReg_sp : (s.setReg r v).sp = s.sp := by cases r <;> rfl
@[simp] theorem State.setReg_p : (s.setReg r v).p = s.p := by cases r <;> rfl
@[simp] theorem State.setReg_halted : (s.setReg r v).halted = s.halted := by cases r <;> rfl
@[simp] theorem State.setReg_mem : (s.setReg r v).mem = s.mem := by cases r <;> rfl
@[simp] theorem State.setReg_device : (s.setReg r v).device = s.device := by cases r <;> rfl
@[simp] theorem State.setReg_config : (s.setReg r v).config = s.config := by cases r <;> rfl
@[simp] theorem State.setReg_cycles : (s.setReg r v).cycles = s.cycles := by cases r <;> rfl
@[simp] theorem State.setReg_accesses : (s.setReg r v).accesses = s.accesses := by cases r <;> rfl

theorem State.getReg_setReg_same : (s.setReg r v).getReg r = v := by cases r <;> rfl

theorem State.getReg_setReg_other {q : Reg} (h : q ≠ r) : (s.setReg r v).getReg q = s.getReg q := by
  cases r <;> cases q <;> first | rfl | exact absurd rfl h

end setReg

end Sys2Proof.Machine
end

