-- ==== Sys2Proof/Laws/Word.lean ====
section
/-! SUPPORT. The byte and address arithmetic of 00_scope.md R5: taking an address apart and putting it together. -/

namespace Sys2Proof

theorem concat_hi_lo (w : Addr) : concat (hi w) (lo w) = w := by
  apply BitVec.eq_of_toNat_eq
  have := w.isLt
  simp only [concat, hi, lo, BitVec.toNat_ofNat]
  omega

@[simp] theorem lo_concat (h l : Byte) : lo (concat h l) = l := by
  apply BitVec.eq_of_toNat_eq
  have := h.isLt
  have := l.isLt
  simp only [concat, lo, BitVec.toNat_ofNat]
  omega

@[simp] theorem hi_concat (h l : Byte) : hi (concat h l) = h := by
  apply BitVec.eq_of_toNat_eq
  have := h.isLt
  have := l.isLt
  simp only [concat, hi, BitVec.toNat_ofNat]
  omega

namespace Machine

@[simp] theorem zext16_toNat (b : Byte) : (zext16 b).toNat = b.toNat := by
  have := b.isLt
  simp only [zext16, BitVec.toNat_ofNat]
  omega

/-- A zero-page address is in page 0 (20_memory.md R48). -/
theorem hi_zext16 (b : Byte) : hi (zext16 b) = 0 := by
  apply BitVec.eq_of_toNat_eq
  have := b.isLt
  have h0 : (0 : Byte).toNat = 0 := rfl
  simp only [hi, BitVec.toNat_ofNat, zext16_toNat, h0]
  omega

/-- A stack address is in page 1 (10_state.md R14). -/
theorem stackAddr_toNat (sp : Byte) : (stackAddr sp).toNat = 0x0100 + sp.toNat := by
  have := sp.isLt
  simp only [stackAddr, BitVec.toNat_ofNat]
  omega

theorem stackAddr_injective {sp sq : Byte} (h : stackAddr sp = stackAddr sq) : sp = sq := by
  apply BitVec.eq_of_toNat_eq
  have := congrArg BitVec.toNat h
  simp only [stackAddr_toNat] at this
  omega

theorem crossPenalty_self (a : Addr) : crossPenalty a a = 0 := by simp [crossPenalty]

theorem crossPenalty_le_one (a b : Addr) : crossPenalty a b ≤ 1 := by
  unfold crossPenalty
  split <;> omega

end Machine

end Sys2Proof
end

