-- ==== Sys2Proof/Laws/Ops.lean ====
section
/-! SUPPORT. What each shared operation can do, said once: what it answers on plain cells, everything that can follow when
it answers `.ok`, and the one fault it can raise. -/

namespace Sys2Proof.Machine

/-! ## Results that can be faults -/

@[simp] theorem ok_bind {α β : Type} (a : α) (f : α → Res β) : ((.ok a : Res α) >>= f) = f a := rfl

@[simp] theorem error_bind {α β : Type} (e : Fault) (f : α → Res β) : ((.error e : Res α) >>= f) = .error e := rfl

theorem bind_eq_ok {α β : Type} {x : Res α} {f : α → Res β} {b : β} :
    (x >>= f) = .ok b ↔ ∃ a, x = .ok a ∧ f a = .ok b := by
  cases x <;> simp

theorem bind_eq_error {α β : Type} {x : Res α} {f : α → Res β} {e : Fault} :
    (x >>= f) = .error e ↔ x = .error e ∨ ∃ a, x = .ok a ∧ f a = .error e := by
  cases x <;> simp

@[simp] theorem pure_eq_ok {α : Type} (a : α) : (pure a : Res α) = .ok a := rfl

theorem finish_eq_next {x : Res State} {t : State} : finish x = .next t ↔ x = .ok t := by
  cases x <;> simp [finish]

theorem finish_eq_fault {x : Res State} {f : Fault} : finish x = .fault f ↔ x = .error f := by
  cases x <;> simp [finish]

theorem finish_ne_refused {x : Res State} {r : Refusal} : finish x ≠ .refused r := by
  cases x <;> simp [finish]

/-! ## The platform -/

/-- An entry of a table answers its key, wherever it stands, if no entry gives that key another value. -/
theorem lookup_eq_some {α β : Type} [BEq α] [LawfulBEq α] {k : α} {v : β} {l : List (α × β)} (h : (k, v) ∈ l)
    (hu : ∀ w, (k, w) ∈ l → w = v) : l.lookup k = some v := by
  induction l with
  | nil => cases h
  | cons e l ih =>
    obtain ⟨j, w⟩ := e
    by_cases hj : k = j
    · subst hj
      simp [List.lookup, hu w (.head _)]
    · have hk : (k, v) ∈ l := by simpa [hj] using h
      simp only [List.lookup, beq_eq_false_iff_ne.mpr hj]
      exact ih hk fun w hw => hu w (.tail _ hw)

/-- On flat RAM every address is a plain cell. -/
theorem readService_flat {s : State} (h : s.config.platform.windows = []) (a : Addr) : s.readService a = .ram := by
  simp [State.readService, regionAt, h]

theorem writeService_flat {s : State} (h : s.config.platform.windows = []) (a : Addr) : s.writeService a = .ram := by
  simp [State.writeService, regionAt, h]

theorem writeCell_ram {s : State} {a : Addr} (h : s.writeService a = .ram) : s.writeCell a = a := by
  simp only [State.writeCell, h]

/-- The platform's decision depends on the parameters alone. -/
theorem writeCell_congr {s t : State} (h : t.config = s.config) (a : Addr) : t.writeCell a = s.writeCell a := by
  simp only [State.writeCell, State.writeService, h]

/-! ## The memory interface -/

/-- Everything a serviced answer of a device can do to a read. -/
theorem answerRead_ok {a : Addr} {s t : State} {v : Byte} {r : Option (Byte × Nat)}
    (h : answerRead a s r = .ok (v, t)) : ∃ d, t = ({ s with device := d } : State).log (.read a) := by
  unfold answerRead at h
  split at h
  · cases h
    exact ⟨_, rfl⟩
  · cases h

theorem answerRead_error {a : Addr} {s : State} {f : Fault} {r : Option (Byte × Nat)}
    (h : answerRead a s r = .error f) : f = raise (.memoryUnserviceable (.read a)) s := by
  unfold answerRead at h
  split at h
  · cases h
  · exact (Except.error.inj h).symm

theorem answerWrite_ok {a : Addr} {v : Byte} {s t : State} {r : Option Nat} (h : answerWrite a v s r = .ok t) :
    ∃ d, t = ({ s with device := d } : State).log (.write a v) := by
  unfold answerWrite at h
  split at h
  · cases h
    exact ⟨_, rfl⟩
  · cases h

theorem answerWrite_error {a : Addr} {v : Byte} {s : State} {f : Fault} {r : Option Nat}
    (h : answerWrite a v s r = .error f) : f = raise (.memoryUnserviceable (.write a v)) s := by
  unfold answerWrite at h
  split at h
  · cases h
  · exact (Except.error.inj h).symm

/-- A read of a plain cell. -/
theorem memRead_ram {a : Addr} {s : State} (h : s.readService a = .ram) :
    memRead a s = .ok (s.peek a, s.log (.read a)) := by
  simp only [memRead, h]

/-- Everything a serviced read can do: it logs itself and may move the devices, nothing else. -/
theorem memRead_ok {a : Addr} {s t : State} {v : Byte} (h : memRead a s = .ok (v, t)) :
    ∃ d, t = ({ s with device := d } : State).log (.read a) ∧
      (s.readService a = .ram → v = s.peek a ∧ d = s.device) := by
  by_cases hr : s.readService a = .ram
  · cases (memRead_ram hr).symm.trans h
    exact ⟨s.device, rfl, fun _ => ⟨rfl, rfl⟩⟩
  · suffices ∃ d, t = ({ s with device := d } : State).log (.read a) from
      let ⟨d, hd⟩ := this
      ⟨d, hd, fun h => absurd h hr⟩
    unfold memRead at h
    split at h <;> first | exact answerRead_ok h | (cases h; exact ⟨s.device, rfl⟩)

/-- The one fault a read can raise. -/
theorem memRead_error {a : Addr} {s : State} {f : Fault} (h : memRead a s = .error f) :
    f = raise (.memoryUnserviceable (.read a)) s ∧ s.readService a ≠ .ram := by
  refine ⟨?_, fun hr => by cases (memRead_ram hr).symm.trans h⟩
  unfold memRead at h
  split at h <;> first | exact answerRead_error h | cases h

/-- A write to a plain cell. -/
theorem memWrite_ram {a : Addr} {v : Byte} {s : State} (h : s.writeService a = .ram) :
    memWrite a v s = .ok ((s.poke a v).log (.write a v)) := by
  simp only [memWrite, h]

/-- Everything a serviced write can do: it logs itself, and changes the one cell its address stands for or the devices,
nothing else. -/
theorem memWrite_ok {a : Addr} {v : Byte} {s t : State} (h : memWrite a v s = .ok t) :
    ∃ d m, t = ({ s with device := d, mem := m } : State).log (.write a v) ∧
      (m = s.mem ∨ m = Memory.write s.mem (s.writeCell a).toNat v) ∧
      (s.writeService a = .ram → m = Memory.write s.mem a.toNat v ∧ d = s.device) := by
  by_cases hr : s.writeService a = .ram
  · cases (memWrite_ram hr).symm.trans h
    exact ⟨s.device, _, rfl, .inr (by rw [writeCell_ram hr]), fun _ => ⟨rfl, rfl⟩⟩
  · suffices ∃ d m, t = ({ s with device := d, mem := m } : State).log (.write a v) ∧
        (m = s.mem ∨ m = Memory.write s.mem (s.writeCell a).toNat v) from
      let ⟨d, m, hd, hm⟩ := this
      ⟨d, m, hd, hm, fun h => absurd h hr⟩
    unfold memWrite at h
    split at h
    · contradiction
    · next hw =>
      cases h
      exact ⟨s.device, _, rfl, .inr (by simp only [State.writeCell, hw])⟩
    · cases h
      exact ⟨s.device, s.mem, rfl, .inl rfl⟩
    all_goals
      obtain ⟨d, rfl⟩ := answerWrite_ok h
      exact ⟨d, s.mem, rfl, .inl rfl⟩

/-- The one fault a write can raise. -/
theorem memWrite_error {a : Addr} {v : Byte} {s : State} {f : Fault} (h : memWrite a v s = .error f) :
    f = raise (.memoryUnserviceable (.write a v)) s ∧ s.writeService a ≠ .ram := by
  refine ⟨?_, fun hr => by cases (memWrite_ram hr).symm.trans h⟩
  unfold memWrite at h
  split at h <;> first | exact answerWrite_error h | cases h

theorem peek_poke_other (s : State) {a b : Addr} (v : Byte) (h : b ≠ a) : (s.poke a v).peek b = s.peek b :=
  Memory.read_write_other _ _ fun e => h (BitVec.eq_of_toNat_eq e)

theorem peek_poke_same (s : State) (a : Addr) (v : Byte) (h : Memory.wf s.mem) : (s.poke a v).peek a = v :=
  Memory.read_write_same _ _ _ h

theorem wf_poke (s : State) (a : Addr) (v : Byte) (h : Memory.wf s.mem) : Memory.wf (s.poke a v).mem :=
  Memory.wf_write _ _ a.isLt h

/-- A serviced write leaves every cell alone but the one its address stands for, on every platform. -/
theorem memWrite_peek_other {a b : Addr} {v : Byte} {s t : State} (h : memWrite a v s = .ok t)
    (hb : b ≠ s.writeCell a) :
    t.peek b = s.peek b := by
  obtain ⟨d, m, rfl, rfl | rfl, -⟩ := memWrite_ok h
  · rfl
  · exact peek_poke_other s v hb

/-- A serviced write keeps memory in canonical form. -/
theorem memWrite_wf {a : Addr} {v : Byte} {s t : State} (h : memWrite a v s = .ok t) (hs : Memory.wf s.mem) :
    Memory.wf t.mem := by
  obtain ⟨d, m, rfl, rfl | rfl, -⟩ := memWrite_ok h
  · exact hs
  · exact wf_poke s _ v hs

/-! ## Reads only: what the pointer reads and the fetches leave alone -/

/-- `t` is `s` after `n` serviced reads: only the devices and the list of accesses can differ. -/
def AfterReads (n : Nat) (s t : State) : Prop :=
  ∃ d l, l.length = n ∧ t = { s with device := d, accesses := s.accesses ++ l }

theorem AfterReads.refl (s : State) : AfterReads 0 s s := ⟨s.device, [], rfl, by simp⟩

theorem AfterReads.trans {m n : Nat} {s t u : State} (h : AfterReads m s t) (k : AfterReads n t u) :
    AfterReads (m + n) s u := by
  obtain ⟨d, l, hl, rfl⟩ := h
  obtain ⟨e, k, hk, rfl⟩ := k
  exact ⟨e, l ++ k, by simp [hl, hk], by simp⟩

theorem memRead_afterReads {a : Addr} {s t : State} {v : Byte} (h : memRead a s = .ok (v, t)) : AfterReads 1 s t := by
  obtain ⟨d, rfl, -⟩ := memRead_ok h
  exact ⟨d, [.read a], rfl, rfl⟩

/-- The fault `f` was raised by an access of `s` after some reads, and by nothing else. -/
def FailedRead (s : State) (f : Fault) : Prop :=
  ∃ n u a, AfterReads n s u ∧ f = raise (.memoryUnserviceable a) u ∧
    (u.readService (match a with | .read b => b | .write b _ => b) ≠ .ram ∨
      u.writeService (match a with | .read b => b | .write b _ => b) ≠ .ram)

theorem FailedRead.after {n : Nat} {s t : State} {f : Fault} (h : AfterReads n s t) (k : FailedRead t f) :
    FailedRead s f := by
  obtain ⟨m, u, a, hu, rfl, hr⟩ := k
  exact ⟨_, u, a, h.trans hu, rfl, hr⟩

theorem memRead_failed {a : Addr} {s : State} {f : Fault} (h : memRead a s = .error f) : FailedRead s f := by
  obtain ⟨rfl, hr⟩ := memRead_error h
  exact ⟨0, s, _, .refl s, rfl, .inl hr⟩

theorem memWrite_failed {a : Addr} {v : Byte} {s : State} {f : Fault} (h : memWrite a v s = .error f) :
    FailedRead s f := by
  obtain ⟨rfl, hr⟩ := memWrite_error h
  exact ⟨0, s, _, .refl s, rfl, .inr hr⟩

/-! ## Fetching -/

/-- A fetch from a plain cell. -/
theorem fetch8_ram {s : State} (h : s.readService s.pc = .ram) :
    fetch8 s = .ok (s.peek s.pc, { s.log (.read s.pc) with pc := s.pc + 1 }) := by
  simp only [fetch8, memRead_ram h, ok_bind]
  rfl

/-- Everything a serviced fetch can do. -/
theorem fetch8_ok {s t : State} {b : Byte} (h : fetch8 s = .ok (b, t)) :
    ∃ u, memRead s.pc s = .ok (b, u) ∧ AfterReads 1 s u ∧ t = { u with pc := s.pc + 1 } := by
  obtain ⟨⟨v, u⟩, hr, he⟩ := bind_eq_ok.mp h
  simp only [pure_eq_ok, Except.ok.injEq, Prod.mk.injEq] at he
  obtain ⟨rfl, rfl⟩ := he
  have ha := memRead_afterReads hr
  refine ⟨u, hr, ha, ?_⟩
  obtain ⟨d, l, -, rfl⟩ := ha
  rfl

/-- A fetch that fails leaves PC where it was (40_step_and_addressing.md R82). -/
theorem fetch8_error {s : State} {f : Fault} (h : fetch8 s = .error f) :
    f = raise (.memoryUnserviceable (.read s.pc)) s := by
  obtain hr | ⟨⟨v, u⟩, -, he⟩ := bind_eq_error.mp h
  · exact (memRead_error hr).1
  · cases he

/-- `t` is `s` after `n` serviced fetches. -/
def AfterFetch (n : Nat) (s t : State) : Prop :=
  ∃ d l, l.length = n ∧ t = { s with device := d, accesses := s.accesses ++ l, pc := s.pc + BitVec.ofNat 16 n }

theorem AfterFetch.trans {m n : Nat} {s t u : State} (h : AfterFetch m s t) (k : AfterFetch n t u) :
    AfterFetch (m + n) s u := by
  obtain ⟨d, l, hl, rfl⟩ := h
  obtain ⟨e, k, hk, rfl⟩ := k
  refine ⟨e, l ++ k, by simp [hl, hk], ?_⟩
  have : s.pc + BitVec.ofNat 16 m + BitVec.ofNat 16 n = s.pc + BitVec.ofNat 16 (m + n) := by
    rw [BitVec.add_assoc, BitVec.ofNat_add]
  simp [this]

theorem fetch8_afterFetch {s t : State} {b : Byte} (h : fetch8 s = .ok (b, t)) : AfterFetch 1 s t := by
  obtain ⟨u, -, ⟨d, l, hl, rfl⟩, rfl⟩ := fetch8_ok h
  exact ⟨d, l, hl, rfl⟩

/-- The operand byte of IMM that is serviced is a fetch like any other. -/
theorem fetchImmediate_afterFetch {s t : State} {b : Byte} (h : fetchImmediate s = .ok (b, t)) : AfterFetch 1 s t := by
  obtain ⟨d, rfl, -⟩ := memRead_ok h
  exact ⟨d, [.read s.pc], rfl, rfl⟩

theorem fetchByteOperand_afterFetch {m : Mode} {s t : State} {b : Byte} (h : fetchByteOperand m s = .ok (b, t)) :
    AfterFetch 1 s t := by
  unfold fetchByteOperand at h
  split at h
  · exact fetchImmediate_afterFetch h
  · exact fetch8_afterFetch h

/-- An operand byte in a plain cell, in every mode that has one. -/
theorem fetchByteOperand_ram {m : Mode} {s : State} (h : s.readService s.pc = .ram) :
    fetchByteOperand m s = .ok (s.peek s.pc, { s.log (.read s.pc) with pc := s.pc + 1 }) := by
  unfold fetchByteOperand
  split
  · exact memRead_ram (s := { s with pc := s.pc + 1 }) h
  · exact fetch8_ram h

/-- An operand byte that is not serviced: in IMM PC is already past it, in the other modes it is still at it. -/
theorem fetchByteOperand_error {m : Mode} {s : State} {f : Fault} (h : fetchByteOperand m s = .error f) :
    f = raise (.memoryUnserviceable (.read s.pc)) (if m = .imm then { s with pc := s.pc + 1 } else s) := by
  unfold fetchByteOperand at h
  split at h
  · next hm => rw [if_pos hm]; exact (memRead_error h).1
  · next hm => rw [if_neg hm]; exact fetch8_error h

theorem fetch16_afterFetch {s t : State} {w : Addr} (h : fetch16 s = .ok (w, t)) : AfterFetch 2 s t := by
  obtain ⟨⟨l, u⟩, hl, h⟩ := bind_eq_ok.mp h
  obtain ⟨⟨k, v⟩, hk, h⟩ := bind_eq_ok.mp h
  simp only [pure_eq_ok, Except.ok.injEq, Prod.mk.injEq] at h
  obtain ⟨-, rfl⟩ := h
  exact (fetch8_afterFetch hl).trans (fetch8_afterFetch hk)

/-! ## The stack engine -/

/-- Everything a serviced push can do (44_stack.md R160). -/
theorem push_ok {v : Byte} {s t : State} (h : push v s = .ok t) :
    ∃ u, memWrite (stackAddr s.sp) v s = .ok u ∧ t = { u with sp := s.sp - 1 } := by
  obtain ⟨u, hu, h⟩ := bind_eq_ok.mp h
  simp only [pure_eq_ok, Except.ok.injEq] at h
  refine ⟨u, hu, ?_⟩
  obtain ⟨d, m, rfl, -, -⟩ := memWrite_ok hu
  exact h.symm

theorem push_ram {v : Byte} {s : State} (h : s.writeService (stackAddr s.sp) = .ram) :
    push v s = .ok { (s.poke (stackAddr s.sp) v).log (.write (stackAddr s.sp) v) with sp := s.sp - 1 } := by
  simp only [push, memWrite_ram h, ok_bind]
  rfl

/-- Everything a serviced pull can do (44_stack.md R161). -/
theorem pull_ok {v : Byte} {s t : State} (h : pull s = .ok (v, t)) :
    AfterReads 1 { s with sp := s.sp + 1 } t := memRead_afterReads h

theorem pull_ram {s : State} (h : s.readService (stackAddr (s.sp + 1)) = .ram) :
    pull s = .ok (s.peek (stackAddr (s.sp + 1)), ({ s with sp := s.sp + 1 } : State).log (.read (stackAddr (s.sp + 1)))) :=
  memRead_ram (s := { s with sp := s.sp + 1 }) h

/-! ## The resolver -/

/-- Everything a pointer read in page 0 can do. -/
theorem zeroPagePointer_ok {p : Byte} {s t : State} {w : Addr} (h : zeroPagePointer p s = .ok (w, t)) :
    AfterReads 2 s t := by
  obtain ⟨⟨l, u⟩, hl, h⟩ := bind_eq_ok.mp h
  obtain ⟨⟨k, v⟩, hk, h⟩ := bind_eq_ok.mp h
  simp only [pure_eq_ok, Except.ok.injEq, Prod.mk.injEq] at h
  obtain ⟨-, rfl⟩ := h
  exact (memRead_afterReads hl).trans (memRead_afterReads hk)

theorem readService_log (s : State) (e : Access) (a : Addr) : (s.log e).readService a = s.readService a := rfl

theorem peek_log (s : State) (e : Access) (a : Addr) : (s.log e).peek a = s.peek a := rfl

/-- A pointer in plain cells of page 0, which wraps there. -/
theorem zeroPagePointer_ram {p : Byte} {s : State} (hl : s.readService (zext16 p) = .ram)
    (hh : s.readService (zext16 (p + 1)) = .ram) :
    zeroPagePointer p s = .ok (concat (s.peek (zext16 (p + 1))) (s.peek (zext16 p)),
      (s.log (.read (zext16 p))).log (.read (zext16 (p + 1)))) := by
  simp only [zeroPagePointer, memRead_ram hl, ok_bind,
    memRead_ram (s := s.log (.read (zext16 p))) (a := zext16 (p + 1)) hh, pure_eq_ok, peek_log]

/-- What every mode function of the resolver does, for the loads, stores and shifts that use it: it makes `n` reads and
nothing else, its penalty is 0 or 1, and the only fault it raises is that of a read. -/
structure Resolves (n : Nat) (s : State) (e : Res Resolved) : Prop where
  ok    : ∀ m, e = .ok m → AfterReads n s m.state ∧ m.penalty ≤ 1
  error : ∀ f, e = .error f → FailedRead s f

theorem resolves_pure {n : Addr} {k : Nat} (s : State) (hk : k ≤ 1) : Resolves 0 s (.ok ⟨n, k, s⟩) where
  ok _ h := by cases h; exact ⟨.refl s, hk⟩
  error _ h := by cases h

theorem resolves_zp (b : Byte) (s : State) : Resolves 0 s (resolveZp b s) := resolves_pure s (by omega)
theorem resolves_zpx (b : Byte) (s : State) : Resolves 0 s (resolveZpx b s) := resolves_pure s (by omega)
theorem resolves_zpy (b : Byte) (s : State) : Resolves 0 s (resolveZpy b s) := resolves_pure s (by omega)
theorem resolves_abs (w : Addr) (s : State) : Resolves 0 s (resolveAbs w s) := resolves_pure s (by omega)
theorem resolves_abx (w : Addr) (s : State) : Resolves 0 s (resolveAbx w s) := resolves_pure s (crossPenalty_le_one _ _)
theorem resolves_aby (w : Addr) (s : State) : Resolves 0 s (resolveAby w s) := resolves_pure s (crossPenalty_le_one _ _)

theorem zeroPagePointer_error {p : Byte} {s : State} {f : Fault} (h : zeroPagePointer p s = .error f) :
    FailedRead s f := by
  obtain h | ⟨⟨l, u⟩, hl, h⟩ := bind_eq_error.mp h
  · exact memRead_failed h
  obtain h | ⟨⟨k, v⟩, -, h⟩ := bind_eq_error.mp h
  · exact (memRead_failed h).after (memRead_afterReads hl)
  · cases h

theorem resolves_izx (b : Byte) (s : State) : Resolves 2 s (resolveIzx b s) where
  ok m h := by
    obtain ⟨⟨w, u⟩, hp, h⟩ := bind_eq_ok.mp h
    cases h
    exact ⟨zeroPagePointer_ok hp, by show (0 : Nat) ≤ 1; omega⟩
  error f h := by
    obtain h | ⟨⟨w, u⟩, -, h⟩ := bind_eq_error.mp h
    · exact zeroPagePointer_error h
    · cases h

theorem resolves_izy (b : Byte) (s : State) : Resolves 2 s (resolveIzy b s) where
  ok m h := by
    obtain ⟨⟨w, u⟩, hp, h⟩ := bind_eq_ok.mp h
    cases h
    exact ⟨zeroPagePointer_ok hp, crossPenalty_le_one _ _⟩
  error f h := by
    obtain h | ⟨⟨w, u⟩, -, h⟩ := bind_eq_error.mp h
    · exact zeroPagePointer_error h
    · cases h

/-- IZX with its pointer in plain cells (40_step_and_addressing.md R98). -/
theorem resolveIzx_ram {b : Byte} {s : State} (hl : s.readService (zext16 (b + s.x)) = .ram)
    (hh : s.readService (zext16 (b + s.x + 1)) = .ram) :
    resolveIzx b s = .ok ⟨concat (s.peek (zext16 (b + s.x + 1))) (s.peek (zext16 (b + s.x))), 0,
      { s with accesses := s.accesses ++ [.read (zext16 (b + s.x)), .read (zext16 (b + s.x + 1))] }⟩ := by
  simp [resolveIzx, zeroPagePointer_ram hl hh, State.log]

/-- IZY with its pointer in plain cells (40_step_and_addressing.md R99). -/
theorem resolveIzy_ram {b : Byte} {s : State} (hl : s.readService (zext16 b) = .ram)
    (hh : s.readService (zext16 (b + 1)) = .ram) :
    resolveIzy b s = .ok (indexed (concat (s.peek (zext16 (b + 1))) (s.peek (zext16 b))) s.y
      { s with accesses := s.accesses ++ [.read (zext16 b), .read (zext16 (b + 1))] }) := by
  simp [resolveIzy, zeroPagePointer_ram hl hh, State.log]

end Sys2Proof.Machine
end

