-- ==== Sys2Proof/Laws/Exec.lean ====
section
/-! SUPPORT. What each shape of instruction can do, said once: the loads, the stores, the shifts, the four stack
instructions, and the step around them. -/

namespace Sys2Proof.Machine

/-! ## Loads, stores and shifts over a resolved address -/

theorem load_eq_next {r : Reg} {e : Res Resolved} {n : Nat} {t : State} :
    load r e n = .next t ↔ ∃ m v u, e = .ok m ∧ memRead m.ea m.state = .ok (v, u) ∧
      t = ((u.setReg r v).setZN v).returns (n + m.penalty) := by
  simp only [load, finish_eq_next, bind_eq_ok, pure_eq_ok, Except.ok.injEq, Prod.exists]
  constructor
  · rintro ⟨m, hm, v, u, hr, rfl⟩
    exact ⟨m, v, u, hm, hr, rfl⟩
  · rintro ⟨m, v, u, hm, hr, rfl⟩
    exact ⟨m, hm, v, u, hr, rfl⟩

theorem load_fault {k : Nat} {s : State} {r : Reg} {e : Res Resolved} {n : Nat} {f : Fault} (he : Resolves k s e)
    (h : load r e n = .fault f) : FailedRead s f := by
  obtain h | ⟨m, hm, h⟩ := bind_eq_error.mp (finish_eq_fault.mp h)
  · exact he.error f h
  obtain h | ⟨⟨v, u⟩, -, h⟩ := bind_eq_error.mp h
  · exact (memRead_failed h).after (he.ok m hm).1
  · cases h

theorem store_eq_next {v : Byte} {e : Res Resolved} {n : Nat} {t : State} :
    store v e n = .next t ↔ ∃ m u, e = .ok m ∧ memWrite m.ea v m.state = .ok u ∧
      t = u.returns (n + u.writePenalty m.penalty) := by
  simp only [store, finish_eq_next, bind_eq_ok, pure_eq_ok, Except.ok.injEq]
  constructor
  · rintro ⟨m, hm, u, hw, rfl⟩
    exact ⟨m, u, hm, hw, rfl⟩
  · rintro ⟨m, u, hm, hw, rfl⟩
    exact ⟨m, hm, u, hw, rfl⟩

theorem store_fault {k : Nat} {s : State} {v : Byte} {e : Res Resolved} {n : Nat} {f : Fault} (he : Resolves k s e)
    (h : store v e n = .fault f) : FailedRead s f := by
  obtain h | ⟨m, hm, h⟩ := bind_eq_error.mp (finish_eq_fault.mp h)
  · exact he.error f h
  obtain h | ⟨u, -, h⟩ := bind_eq_error.mp h
  · exact (memWrite_failed h).after (he.ok m hm).1
  · cases h

theorem shiftMem_eq_next {unit : Byte → Byte × Bool} {e : Res Resolved} {n : Nat} {t : State} :
    shiftMem unit e n = .next t ↔ ∃ m v u w, e = .ok m ∧ memRead m.ea m.state = .ok (v, u) ∧
      memWrite m.ea (unit v).1 u = .ok w ∧
      t = (w.setShiftFlags (unit v)).returns (n + w.writePenalty m.penalty) := by
  simp only [shiftMem, finish_eq_next, bind_eq_ok, pure_eq_ok, Except.ok.injEq, Prod.exists]
  constructor
  · rintro ⟨m, hm, v, u, hr, w, hw, rfl⟩
    exact ⟨m, v, u, w, hm, hr, hw, rfl⟩
  · rintro ⟨m, v, u, w, hm, hr, hw, rfl⟩
    exact ⟨m, hm, v, u, hr, w, hw, rfl⟩

theorem shiftMem_fault {k : Nat} {s : State} {unit : Byte → Byte × Bool} {e : Res Resolved} {n : Nat} {f : Fault}
    (he : Resolves k s e) (h : shiftMem unit e n = .fault f) : FailedRead s f := by
  obtain h | ⟨m, hm, h⟩ := bind_eq_error.mp (finish_eq_fault.mp h)
  · exact he.error f h
  have hs := (he.ok m hm).1
  obtain h | ⟨⟨v, u⟩, hr, h⟩ := bind_eq_error.mp h
  · exact (memRead_failed h).after hs
  obtain h | ⟨w, -, h⟩ := bind_eq_error.mp h
  · exact (memWrite_failed h).after (hs.trans (memRead_afterReads hr))
  · cases h

/-! ## The same on plain cells: the whole next state, after the pointer reads `ps` of the mode -/

theorem load_plain {s : State} {ea : Addr} {k n : Nat} {ps : List Access} {e : Res Resolved} (r : Reg)
    (he : e = .ok ⟨ea, k, { s with accesses := s.accesses ++ ps }⟩) (h : s.readService ea = .ram) :
    load r e n = .next { s.setReg r (s.peek ea) with
      p := setZNByte (s.peek ea) s.p, cycles := some (n + k), accesses := s.accesses ++ (ps ++ [.read ea]) } := by
  refine load_eq_next.mpr ⟨_, s.peek ea, _, he, memRead_ram h, ?_⟩
  cases r <;> simp [State.setReg, State.setZN, State.returns, State.log]

theorem store_plain {s : State} {ea : Addr} {k n : Nat} {ps : List Access} {e : Res Resolved} (v : Byte)
    (he : e = .ok ⟨ea, k, { s with accesses := s.accesses ++ ps }⟩) (h : s.writeService ea = .ram) :
    store v e n = .next { s.poke ea v with
      cycles := some (n + if s.config.penaltyOnWrites then k else 0)
      accesses := s.accesses ++ ps ++ [.write ea v] } := by
  exact store_eq_next.mpr ⟨_, _, he, memWrite_ram h, rfl⟩

theorem shiftMem_plain {s : State} {ea : Addr} {k n : Nat} {e : Res Resolved} (unit : Byte → Byte × Bool)
    (he : e = .ok ⟨ea, k, s⟩) (h : s.readService ea = .ram) (hw : s.writeService ea = .ram) :
    shiftMem unit e n = .next { s.poke ea (unit (s.peek ea)).1 with
      p := setZNByte (unit (s.peek ea)).1 (setFlag .carry (unit (s.peek ea)).2 s.p)
      cycles := some (n + if s.config.penaltyOnWrites then k else 0)
      accesses := s.accesses ++ [.read ea, .write ea (unit (s.peek ea)).1] } := by
  refine shiftMem_eq_next.mpr ⟨_, _, _, _, he, memRead_ram h, memWrite_ram (s := s.log _) hw, ?_⟩
  simp [State.log, State.poke, State.returns, State.writePenalty, State.setShiftFlags, State.setCarry, State.setZN]

/-! ## The stack instructions -/

theorem execPha_eq_next {s t : State} :
    execPha s = .next t ↔ ∃ u, push s.a s = .ok u ∧ t = u.returns (s.baseCycles 0x48 3) := by
  simp only [execPha, finish_eq_next, bind_eq_ok, pure_eq_ok, Except.ok.injEq]
  exact exists_congr fun u => and_congr_right fun _ => eq_comm

theorem execPhp_eq_next {s t : State} :
    execPhp s = .next t ↔
      ∃ u, push (s.status ||| s.config.phpPushOrMask) s = .ok u ∧ t = u.returns (s.baseCycles 0x08 3) := by
  simp only [execPhp, finish_eq_next, bind_eq_ok, pure_eq_ok, Except.ok.injEq]
  exact exists_congr fun u => and_congr_right fun _ => eq_comm

theorem execPla_eq_next {s t : State} :
    execPla s = .next t ↔ ∃ v u, pull s = .ok (v, u) ∧
      t = (({ u with a := v } : State).setZN v).returns (s.baseCycles 0x68 4) := by
  simp only [execPla, finish_eq_next, bind_eq_ok, pure_eq_ok, Except.ok.injEq, Prod.exists]
  exact exists_congr fun v => exists_congr fun u => and_congr_right fun _ => eq_comm

theorem execPlp_eq_next {s t : State} :
    execPlp s = .next t ↔ ∃ v u, pull s = .ok (v, u) ∧ t = (u.setStatus v).returns (s.baseCycles 0x28 4) := by
  simp only [execPlp, finish_eq_next, bind_eq_ok, pure_eq_ok, Except.ok.injEq, Prod.exists]
  exact exists_congr fun v => exists_congr fun u => and_congr_right fun _ => eq_comm

/-! ## The step -/

/-- Everything a step that completes can be: the core was not halted, an instruction was fetched, and its meaning gave
the next state. -/
theorem step_eq_next {s t : State} :
    step s = .next t ↔ s.halted = none ∧ ∃ i u, fetchInstr s.begin = .ok (i, u) ∧ exec i u = .next t := by
  unfold step
  split
  · next h => simp [h]
  · next h =>
    split
    · next h2 => simp [h2]
    · next i u h2 => simp [h, h2]

theorem fetchOperand_ok {f : Format} {s t : State} {i : Instr} (h : fetchOperand f s = .ok (i, t)) :
    ∃ n, AfterFetch n s t ∧ n ≤ 2 := by
  cases f with
  | f1 j => cases h; exact ⟨0, ⟨s.device, [], rfl, by simp⟩, by omega⟩
  | f2 build =>
    obtain ⟨⟨b, u⟩, hb, h⟩ := bind_eq_ok.mp h
    cases h
    exact ⟨1, fetchByteOperand_afterFetch hb, by omega⟩
  | f3 build =>
    obtain ⟨⟨w, u⟩, hw, h⟩ := bind_eq_ok.mp h
    cases h
    exact ⟨2, fetch16_afterFetch hw, by omega⟩

/-- Everything a completed fetch of an instruction can do: between one and three serviced fetches, nothing else. -/
theorem fetchInstr_ok {s t : State} {i : Instr} (h : fetchInstr s = .ok (i, t)) :
    ∃ n, AfterFetch n s t ∧ 1 ≤ n ∧ n ≤ 3 := by
  obtain ⟨⟨b, u⟩, hb, h⟩ := bind_eq_ok.mp h
  dsimp only at h
  split at h
  · cases h
  · obtain ⟨n, hn, hle⟩ := fetchOperand_ok h
    exact ⟨1 + n, (fetch8_afterFetch hb).trans hn, by omega, by omega⟩

end Sys2Proof.Machine
end

