-- ==== Sys2Proof/Laws/PerInstr.lean ====
section
/-! SUPPORT. Of each instruction as syntax: its mode is one its mnemonic has (30_encoding.md R65), its operand is a
number of the mode's operand bytes and its encoding has as many (R60, R61), and its opcode byte has a row in the map
(R66). One lemma per constructor. -/

namespace Sys2Proof.Laws.EncodedForm

/-- What holds of every instruction as syntax. -/
def Statement (i : Instr) : Prop :=
  i.mode ∈ i.mnemonic.modes ∧ i.operand < 256 ^ i.mode.operandBytes ∧
    i.operandEncoding.length = i.mode.operandBytes ∧ i.opcode ∈ opcodeRows.map Prod.fst

theorem ldaImm (v : Byte) : Statement (.ldaImm v) :=
  ⟨(by decide : Mode.imm ∈ Mnemonic.modes .lda), v.isLt, rfl, (by decide : (0xA9 : Byte) ∈ opcodeRows.map Prod.fst)⟩
theorem ldaZp (b : Byte) : Statement (.ldaZp b) :=
  ⟨(by decide : Mode.zp ∈ Mnemonic.modes .lda), b.isLt, rfl, (by decide : (0xA5 : Byte) ∈ opcodeRows.map Prod.fst)⟩
theorem ldaZpx (b : Byte) : Statement (.ldaZpx b) :=
  ⟨(by decide : Mode.zpx ∈ Mnemonic.modes .lda), b.isLt, rfl, (by decide : (0xB5 : Byte) ∈ opcodeRows.map Prod.fst)⟩
theorem ldaAbs (w : Addr) : Statement (.ldaAbs w) :=
  ⟨(by decide : Mode.abs ∈ Mnemonic.modes .lda), w.isLt, rfl, (by decide : (0xAD : Byte) ∈ opcodeRows.map Prod.fst)⟩
theorem ldaAbx (w : Addr) : Statement (.ldaAbx w) :=
  ⟨(by decide : Mode.abx ∈ Mnemonic.modes .lda), w.isLt, rfl, (by decide : (0xBD : Byte) ∈ opcodeRows.map Prod.fst)⟩
theorem ldaAby (w : Addr) : Statement (.ldaAby w) :=
  ⟨(by decide : Mode.aby ∈ Mnemonic.modes .lda), w.isLt, rfl, (by decide : (0xB9 : Byte) ∈ opcodeRows.map Prod.fst)⟩
theorem ldaIzx (b : Byte) : Statement (.ldaIzx b) :=
  ⟨(by decide : Mode.izx ∈ Mnemonic.modes .lda), b.isLt, rfl, (by decide : (0xA1 : Byte) ∈ opcodeRows.map Prod.fst)⟩
theorem ldaIzy (b : Byte) : Statement (.ldaIzy b) :=
  ⟨(by decide : Mode.izy ∈ Mnemonic.modes .lda), b.isLt, rfl, (by decide : (0xB1 : Byte) ∈ opcodeRows.map Prod.fst)⟩
theorem ldxImm (v : Byte) : Statement (.ldxImm v) :=
  ⟨(by decide : Mode.imm ∈ Mnemonic.modes .ldx), v.isLt, rfl, (by decide : (0xA2 : Byte) ∈ opcodeRows.map Prod.fst)⟩
theorem ldxZp (b : Byte) : Statement (.ldxZp b) :=
  ⟨(by decide : Mode.zp ∈ Mnemonic.modes .ldx), b.isLt, rfl, (by decide : (0xA6 : Byte) ∈ opcodeRows.map Prod.fst)⟩
theorem ldxZpy (b : Byte) : Statement (.ldxZpy b) :=
  ⟨(by decide : Mode.zpy ∈ Mnemonic.modes .ldx), b.isLt, rfl, (by decide : (0xB6 : Byte) ∈ opcodeRows.map Prod.fst)⟩
theorem ldxAbs (w : Addr) : Statement (.ldxAbs w) :=
  ⟨(by decide : Mode.abs ∈ Mnemonic.modes .ldx), w.isLt, rfl, (by decide : (0xAE : Byte) ∈ opcodeRows.map Prod.fst)⟩
theorem ldxAby (w : Addr) : Statement (.ldxAby w) :=
  ⟨(by decide : Mode.aby ∈ Mnemonic.modes .ldx), w.isLt, rfl, (by decide : (0xBE : Byte) ∈ opcodeRows.map Prod.fst)⟩
theorem ldyImm (v : Byte) : Statement (.ldyImm v) :=
  ⟨(by decide : Mode.imm ∈ Mnemonic.modes .ldy), v.isLt, rfl, (by decide : (0xA0 : Byte) ∈ opcodeRows.map Prod.fst)⟩
theorem ldyZp (b : Byte) : Statement (.ldyZp b) :=
  ⟨(by decide : Mode.zp ∈ Mnemonic.modes .ldy), b.isLt, rfl, (by decide : (0xA4 : Byte) ∈ opcodeRows.map Prod.fst)⟩
theorem ldyZpx (b : Byte) : Statement (.ldyZpx b) :=
  ⟨(by decide : Mode.zpx ∈ Mnemonic.modes .ldy), b.isLt, rfl, (by decide : (0xB4 : Byte) ∈ opcodeRows.map Prod.fst)⟩
theorem ldyAbs (w : Addr) : Statement (.ldyAbs w) :=
  ⟨(by decide : Mode.abs ∈ Mnemonic.modes .ldy), w.isLt, rfl, (by decide : (0xAC : Byte) ∈ opcodeRows.map Prod.fst)⟩
theorem ldyAbx (w : Addr) : Statement (.ldyAbx w) :=
  ⟨(by decide : Mode.abx ∈ Mnemonic.modes .ldy), w.isLt, rfl, (by decide : (0xBC : Byte) ∈ opcodeRows.map Prod.fst)⟩
theorem staZp (b : Byte) : Statement (.staZp b) :=
  ⟨(by decide : Mode.zp ∈ Mnemonic.modes .sta), b.isLt, rfl, (by decide : (0x85 : Byte) ∈ opcodeRows.map Prod.fst)⟩
theorem staZpx (b : Byte) : Statement (.staZpx b) :=
  ⟨(by decide : Mode.zpx ∈ Mnemonic.modes .sta), b.isLt, rfl, (by decide : (0x95 : Byte) ∈ opcodeRows.map Prod.fst)⟩
theorem staAbs (w : Addr) : Statement (.staAbs w) :=
  ⟨(by decide : Mode.abs ∈ Mnemonic.modes .sta), w.isLt, rfl, (by decide : (0x8D : Byte) ∈ opcodeRows.map Prod.fst)⟩
theorem staAbx (w : Addr) : Statement (.staAbx w) :=
  ⟨(by decide : Mode.abx ∈ Mnemonic.modes .sta), w.isLt, rfl, (by decide : (0x9D : Byte) ∈ opcodeRows.map Prod.fst)⟩
theorem staAby (w : Addr) : Statement (.staAby w) :=
  ⟨(by decide : Mode.aby ∈ Mnemonic.modes .sta), w.isLt, rfl, (by decide : (0x99 : Byte) ∈ opcodeRows.map Prod.fst)⟩
theorem staIzx (b : Byte) : Statement (.staIzx b) :=
  ⟨(by decide : Mode.izx ∈ Mnemonic.modes .sta), b.isLt, rfl, (by decide : (0x81 : Byte) ∈ opcodeRows.map Prod.fst)⟩
theorem staIzy (b : Byte) : Statement (.staIzy b) :=
  ⟨(by decide : Mode.izy ∈ Mnemonic.modes .sta), b.isLt, rfl, (by decide : (0x91 : Byte) ∈ opcodeRows.map Prod.fst)⟩
theorem stxZp (b : Byte) : Statement (.stxZp b) :=
  ⟨(by decide : Mode.zp ∈ Mnemonic.modes .stx), b.isLt, rfl, (by decide : (0x86 : Byte) ∈ opcodeRows.map Prod.fst)⟩
theorem stxZpy (b : Byte) : Statement (.stxZpy b) :=
  ⟨(by decide : Mode.zpy ∈ Mnemonic.modes .stx), b.isLt, rfl, (by decide : (0x96 : Byte) ∈ opcodeRows.map Prod.fst)⟩
theorem stxAbs (w : Addr) : Statement (.stxAbs w) :=
  ⟨(by decide : Mode.abs ∈ Mnemonic.modes .stx), w.isLt, rfl, (by decide : (0x8E : Byte) ∈ opcodeRows.map Prod.fst)⟩
theorem styZp (b : Byte) : Statement (.styZp b) :=
  ⟨(by decide : Mode.zp ∈ Mnemonic.modes .sty), b.isLt, rfl, (by decide : (0x84 : Byte) ∈ opcodeRows.map Prod.fst)⟩
theorem styZpx (b : Byte) : Statement (.styZpx b) :=
  ⟨(by decide : Mode.zpx ∈ Mnemonic.modes .sty), b.isLt, rfl, (by decide : (0x94 : Byte) ∈ opcodeRows.map Prod.fst)⟩
theorem styAbs (w : Addr) : Statement (.styAbs w) :=
  ⟨(by decide : Mode.abs ∈ Mnemonic.modes .sty), w.isLt, rfl, (by decide : (0x8C : Byte) ∈ opcodeRows.map Prod.fst)⟩
theorem tax : Statement .tax :=
  ⟨(by decide : Mode.imp ∈ Mnemonic.modes .tax), by decide, rfl, (by decide : (0xAA : Byte) ∈ opcodeRows.map Prod.fst)⟩
theorem txa : Statement .txa :=
  ⟨(by decide : Mode.imp ∈ Mnemonic.modes .txa), by decide, rfl, (by decide : (0x8A : Byte) ∈ opcodeRows.map Prod.fst)⟩
theorem tay : Statement .tay :=
  ⟨(by decide : Mode.imp ∈ Mnemonic.modes .tay), by decide, rfl, (by decide : (0xA8 : Byte) ∈ opcodeRows.map Prod.fst)⟩
theorem tya : Statement .tya :=
  ⟨(by decide : Mode.imp ∈ Mnemonic.modes .tya), by decide, rfl, (by decide : (0x98 : Byte) ∈ opcodeRows.map Prod.fst)⟩
theorem tsx : Statement .tsx :=
  ⟨(by decide : Mode.imp ∈ Mnemonic.modes .tsx), by decide, rfl, (by decide : (0xBA : Byte) ∈ opcodeRows.map Prod.fst)⟩
theorem txs : Statement .txs :=
  ⟨(by decide : Mode.imp ∈ Mnemonic.modes .txs), by decide, rfl, (by decide : (0x9A : Byte) ∈ opcodeRows.map Prod.fst)⟩
theorem pha : Statement .pha :=
  ⟨(by decide : Mode.imp ∈ Mnemonic.modes .pha), by decide, rfl, (by decide : (0x48 : Byte) ∈ opcodeRows.map Prod.fst)⟩
theorem php : Statement .php :=
  ⟨(by decide : Mode.imp ∈ Mnemonic.modes .php), by decide, rfl, (by decide : (0x08 : Byte) ∈ opcodeRows.map Prod.fst)⟩
theorem pla : Statement .pla :=
  ⟨(by decide : Mode.imp ∈ Mnemonic.modes .pla), by decide, rfl, (by decide : (0x68 : Byte) ∈ opcodeRows.map Prod.fst)⟩
theorem plp : Statement .plp :=
  ⟨(by decide : Mode.imp ∈ Mnemonic.modes .plp), by decide, rfl, (by decide : (0x28 : Byte) ∈ opcodeRows.map Prod.fst)⟩
theorem aslAcc : Statement .aslAcc :=
  ⟨(by decide : Mode.acc ∈ Mnemonic.modes .asl), by decide, rfl, (by decide : (0x0A : Byte) ∈ opcodeRows.map Prod.fst)⟩
theorem aslZp (b : Byte) : Statement (.aslZp b) :=
  ⟨(by decide : Mode.zp ∈ Mnemonic.modes .asl), b.isLt, rfl, (by decide : (0x06 : Byte) ∈ opcodeRows.map Prod.fst)⟩
theorem aslZpx (b : Byte) : Statement (.aslZpx b) :=
  ⟨(by decide : Mode.zpx ∈ Mnemonic.modes .asl), b.isLt, rfl, (by decide : (0x16 : Byte) ∈ opcodeRows.map Prod.fst)⟩
theorem aslAbs (w : Addr) : Statement (.aslAbs w) :=
  ⟨(by decide : Mode.abs ∈ Mnemonic.modes .asl), w.isLt, rfl, (by decide : (0x0E : Byte) ∈ opcodeRows.map Prod.fst)⟩
theorem aslAbx (w : Addr) : Statement (.aslAbx w) :=
  ⟨(by decide : Mode.abx ∈ Mnemonic.modes .asl), w.isLt, rfl, (by decide : (0x1E : Byte) ∈ opcodeRows.map Prod.fst)⟩
theorem lsrAcc : Statement .lsrAcc :=
  ⟨(by decide : Mode.acc ∈ Mnemonic.modes .lsr), by decide, rfl, (by decide : (0x4A : Byte) ∈ opcodeRows.map Prod.fst)⟩
theorem lsrZp (b : Byte) : Statement (.lsrZp b) :=
  ⟨(by decide : Mode.zp ∈ Mnemonic.modes .lsr), b.isLt, rfl, (by decide : (0x46 : Byte) ∈ opcodeRows.map Prod.fst)⟩
theorem lsrZpx (b : Byte) : Statement (.lsrZpx b) :=
  ⟨(by decide : Mode.zpx ∈ Mnemonic.modes .lsr), b.isLt, rfl, (by decide : (0x56 : Byte) ∈ opcodeRows.map Prod.fst)⟩
theorem lsrAbs (w : Addr) : Statement (.lsrAbs w) :=
  ⟨(by decide : Mode.abs ∈ Mnemonic.modes .lsr), w.isLt, rfl, (by decide : (0x4E : Byte) ∈ opcodeRows.map Prod.fst)⟩
theorem lsrAbx (w : Addr) : Statement (.lsrAbx w) :=
  ⟨(by decide : Mode.abx ∈ Mnemonic.modes .lsr), w.isLt, rfl, (by decide : (0x5E : Byte) ∈ opcodeRows.map Prod.fst)⟩

end Sys2Proof.Laws.EncodedForm
end

