-- ==== Sys2Proof/Tests/Slice0.lean ====
section
/-! SUPPORT. The model's own tests. Every expected value is the spec's: the words come from the encodings of
spec/opcode_table.json and the steps from spec/95_test_vectors.md, whose number each name carries. The witnesses at the
end show states and operands that meet the hypotheses of the statements. -/

namespace Sys2Proof.Tests.Slice0

open Sys2Proof.Machine

/-! ## Which lines are instructions (WellFormed) -/

/-- Check 1 refuses a variant that the hardware lacks (30_encoding.md R65): STA #, LDX $nn,X, LSR implied, TAX A. -/
theorem test_variant_check_refuses :
    [AsmLine.mk .sta .imm 0x10, ⟨.ldx, .zpx, 0x10⟩, ⟨.lsr, .imp, 0⟩, ⟨.tax, .acc, 0⟩, ⟨.lda, .ind, 0x1234⟩].map
      (fun l => (l.variantExists, l.wellFormed, assemble l)) = List.replicate 5 (false, false, none) := by decide

/-- Check 2 refuses an operand that does not fit (R60): a 9-bit page-0 address, a 17-bit address, an operand of TAX. -/
theorem test_operand_check_refuses :
    [AsmLine.mk .lda .zp 0x100, ⟨.sta, .abs, 0x10000⟩, ⟨.tax, .imp, 1⟩, ⟨.asl, .acc, 1⟩].map
      (fun l => (l.operandFits, l.wellFormed, assemble l)) = List.replicate 4 (false, false, none) := by decide

/-- The largest operands that fit. -/
theorem test_line_accepted :
    [AsmLine.mk .lda .zp 0xFF, ⟨.sta, .abs, 0xFFFF⟩, ⟨.tax, .imp, 0⟩].map assemble =
      [some (.ldaZp 0xFF), some (.staAbs 0xFFFF), some .tax] := by decide

/-- The conventional form of a line in each addressing mode (R70). -/
theorem test_line_text :
    [AsmLine.mk .tax .imp 0, ⟨.asl, .acc, 0⟩, ⟨.lda, .imm, 0x0F⟩, ⟨.lda, .zp, 0xA1⟩, ⟨.lda, .zpx, 0x10⟩,
      ⟨.ldx, .zpy, 0x10⟩, ⟨.lda, .abs, 0x12EF⟩, ⟨.lda, .abx, 0x1234⟩, ⟨.lda, .aby, 0x1234⟩, ⟨.lda, .izx, 0x2F⟩,
      ⟨.lda, .izy, 0x2F⟩].map AsmLine.text =
      ["TAX", "ASL A", "LDA #$0F", "LDA $A1", "LDA $10,X", "LDX $10,Y", "LDA $12EF", "LDA $1234,X", "LDA $1234,Y",
        "LDA ($2F,X)", "LDA ($2F),Y"] := by decide

/-! ## Decoding, by words written out from the encodings of the opcode table

A word is written with its last byte first: in a 24-bit word the high operand byte, the low operand byte, the opcode. -/

theorem test_decode_load :
    [decodeTableWord 16 0b00101101_10101001,
     decodeTableWord 16 0b00111110_10100101,
     decodeTableWord 16 0b01001111_10110101,
     decodeTableWord 24 0b11000011_01100000_10101101,
     decodeTableWord 24 0b11000011_01110001_10111101,
     decodeTableWord 24 0b11000011_10000010_10111001,
     decodeTableWord 16 0b10010011_10100001,
     decodeTableWord 16 0b10100100_10110001,
     decodeTableWord 16 0b10110101_10100010,
     decodeTableWord 16 0b11000110_10100110,
     decodeTableWord 16 0b11010111_10110110,
     decodeTableWord 24 0b11000011_11101000_10101110,
     decodeTableWord 24 0b11000011_11111001_10111110,
     decodeTableWord 16 0b00001010_10100000,
     decodeTableWord 16 0b00011011_10100100,
     decodeTableWord 16 0b00101100_10110100,
     decodeTableWord 24 0b11000011_00111101_10101100,
     decodeTableWord 24 0b11000011_01001110_10111100] =
    [some (.ldaImm 0x2D), some (.ldaZp 0x3E), some (.ldaZpx 0x4F), some (.ldaAbs 0xC360),
     some (.ldaAbx 0xC371), some (.ldaAby 0xC382), some (.ldaIzx 0x93), some (.ldaIzy 0xA4),
     some (.ldxImm 0xB5), some (.ldxZp 0xC6), some (.ldxZpy 0xD7), some (.ldxAbs 0xC3E8),
     some (.ldxAby 0xC3F9), some (.ldyImm 0x0A), some (.ldyZp 0x1B), some (.ldyZpx 0x2C),
     some (.ldyAbs 0xC33D), some (.ldyAbx 0xC34E)] := by decide

theorem test_decode_store :
    [decodeTableWord 16 0b00101101_10000101,
     decodeTableWord 16 0b00111110_10010101,
     decodeTableWord 24 0b11000011_01001111_10001101,
     decodeTableWord 24 0b11000011_01100000_10011101,
     decodeTableWord 24 0b11000011_01110001_10011001,
     decodeTableWord 16 0b10000010_10000001,
     decodeTableWord 16 0b10010011_10010001,
     decodeTableWord 16 0b10100100_10000110,
     decodeTableWord 16 0b10110101_10010110,
     decodeTableWord 24 0b11000011_11000110_10001110,
     decodeTableWord 16 0b11010111_10000100,
     decodeTableWord 16 0b11101000_10010100,
     decodeTableWord 24 0b11000011_11111001_10001100] =
    [some (.staZp 0x2D), some (.staZpx 0x3E), some (.staAbs 0xC34F), some (.staAbx 0xC360),
     some (.staAby 0xC371), some (.staIzx 0x82), some (.staIzy 0x93), some (.stxZp 0xA4),
     some (.stxZpy 0xB5), some (.stxAbs 0xC3C6), some (.styZp 0xD7), some (.styZpx 0xE8),
     some (.styAbs 0xC3F9)] := by decide

theorem test_decode_transfer :
    [decodeTableWord 8 0b10101010,
     decodeTableWord 8 0b10001010,
     decodeTableWord 8 0b10101000,
     decodeTableWord 8 0b10011000,
     decodeTableWord 8 0b10111010,
     decodeTableWord 8 0b10011010] =
    [some .tax, some .txa, some .tay, some .tya, some .tsx, some .txs] := by decide

theorem test_decode_stack :
    [decodeTableWord 8 0b01001000,
     decodeTableWord 8 0b00001000,
     decodeTableWord 8 0b01101000,
     decodeTableWord 8 0b00101000] =
    [some .pha, some .php, some .pla, some .plp] := by decide

theorem test_decode_shift :
    [decodeTableWord 8 0b00001010,
     decodeTableWord 16 0b00111110_00000110,
     decodeTableWord 16 0b01001111_00010110,
     decodeTableWord 24 0b11000011_01100000_00001110,
     decodeTableWord 24 0b11000011_01110001_00011110,
     decodeTableWord 8 0b01001010,
     decodeTableWord 16 0b10010011_01000110,
     decodeTableWord 16 0b10100100_01010110,
     decodeTableWord 24 0b11000011_10110101_01001110,
     decodeTableWord 24 0b11000011_11000110_01011110] =
    [some .aslAcc, some (.aslZp 0x3E), some (.aslZpx 0x4F), some (.aslAbs 0xC360),
     some (.aslAbx 0xC371), some .lsrAcc, some (.lsrZp 0x93), some (.lsrZpx 0xA4),
     some (.lsrAbs 0xC3B5), some (.lsrAbx 0xC3C6)] := by decide

/-- A byte with no row is rejected by name, alone or before operand bytes (30_encoding.md R67, R68); bytes that end too
soon are rejected too. -/
theorem test_decode_rejects :
    decode [0xEA] = .error (.illegalOpcode 0xEA) ∧ decode [0x4C, 0x00, 0x03] = .error (.illegalOpcode 0x4C) ∧
      decode [0xAD, 0x34] = .error .endOfBytes ∧ decode [] = .error .endOfBytes ∧
      decodeTableWord 8 0x0B = none := by decide

/-! ## One step of each instruction -/

/-- The state the step vectors begin in: PC 0x0200, SP 0xFF, P 0x20, the rest zero. -/
def start : State := { State.reset with pc := 0x0200, sp := 0xFF }

/-- The bytes of an instruction placed at PC. -/
def prog (bytes : List Byte) (s : State) : State := s.place s.pc bytes

/-- Cells set. -/
def cells (l : List (Addr × Byte)) (s : State) : State := l.foldl (fun s c => s.poke c.1 c.2) s

/-- `start` with other parameters, and X = 1 for the indexed forms. -/
def tuned (c : Config) : State := { start with config := c, x := 0x01 }

/-- `start` on a platform with one unserviceable window. -/
def holed (base size : Nat) : State :=
  { start with config := { platform := { windows := [⟨base, size, .unserviceable, .unserviceable⟩] } } }

/-- The step completes, and its end state passes the check. -/
def runs (s : State) (check : State → Bool) : Bool :=
  match step s with
  | .next t => check t
  | .fault _ => false
  | .refused _ => false

/-- The step faults, and the fault passes the check. -/
def stops (s : State) (check : Fault → Bool) : Bool :=
  match step s with
  | .next _ => false
  | .fault f => check f
  | .refused _ => false

theorem test_L1 : runs (prog [0xA9, 0x00] { start with a := 0x55 })
    (fun t => t.a == 0x00 && t.pc == 0x0202 && t.p == 0x22 && t.cycles == some 2) = true := by decide

theorem test_L4 : runs (prog [0xA5, 0x10] (cells [(0x0010, 0x80)] start))
    (fun t => t.a == 0x80 && t.pc == 0x0202 && t.p == 0xA0 && t.cycles == some 3) = true := by decide

theorem test_L5 : runs (prog [0xB5, 0xF0] (cells [(0x0010, 0x7F)] { start with x := 0x20 }))
    (fun t => t.a == 0x7F && t.pc == 0x0202 && t.p == 0x20 && t.cycles == some 4) = true := by decide

theorem test_L6 : runs (prog [0xAD, 0x34, 0x12] (cells [(0x1234, 0xC3)] start))
    (fun t => t.a == 0xC3 && t.pc == 0x0203 && t.p == 0xA0 && t.cycles == some 4) = true := by decide

theorem test_L7 : runs (prog [0xBD, 0xFF, 0x00] (cells [(0x0100, 0x42)] { start with x := 0x01 }))
    (fun t => t.a == 0x42 && t.pc == 0x0203 && t.p == 0x20 && t.cycles == some 5) = true := by decide

theorem test_L8 : runs (prog [0xBD, 0x00, 0x03] (cells [(0x03FF, 0x00)] { start with x := 0xFF }))
    (fun t => t.a == 0x00 && t.pc == 0x0203 && t.p == 0x22 && t.cycles == some 4) = true := by decide

theorem test_L9 : runs (prog [0xB9, 0xF0, 0x12] (cells [(0x1300, 0x01)] { start with y := 0x10 }))
    (fun t => t.a == 0x01 && t.pc == 0x0203 && t.p == 0x20 && t.cycles == some 5) = true := by decide

theorem test_L10 :
    runs (prog [0xA1, 0x20] (cells [(0x0024, 0x74), (0x0025, 0x20), (0x2074, 0x99)] { start with x := 0x04 }))
      (fun t => t.a == 0x99 && t.pc == 0x0202 && t.p == 0xA0 && t.cycles == some 6) = true := by decide

theorem test_L11 :
    runs (prog [0xB1, 0x20] (cells [(0x0020, 0xF0), (0x0021, 0x12), (0x1310, 0x01)] { start with y := 0x20 }))
      (fun t => t.a == 0x01 && t.pc == 0x0202 && t.p == 0x20 && t.cycles == some 6) = true := by decide

theorem test_L12 :
    runs (prog [0xB1, 0x20] (cells [(0x0020, 0xF0), (0x0021, 0x12), (0x12FF, 0x00)] { start with y := 0x0F }))
      (fun t => t.a == 0x00 && t.pc == 0x0202 && t.p == 0x22 && t.cycles == some 5) = true := by decide

theorem test_L13 : runs (prog [0xA2, 0xFF] start)
    (fun t => t.x == 0xFF && t.pc == 0x0202 && t.p == 0xA0 && t.cycles == some 2) = true := by decide

theorem test_L14 : runs (prog [0xA6, 0x10] (cells [(0x0010, 0x05)] start))
    (fun t => t.x == 0x05 && t.pc == 0x0202 && t.p == 0x20 && t.cycles == some 3) = true := by decide

theorem test_L15 : runs (prog [0xB6, 0xFF] (cells [(0x0000, 0x80)] { start with y := 0x01 }))
    (fun t => t.x == 0x80 && t.pc == 0x0202 && t.p == 0xA0 && t.cycles == some 4) = true := by decide

theorem test_L16 : runs (prog [0xAE, 0x00, 0x03] (cells [(0x0300, 0x00)] { start with x := 0x09 }))
    (fun t => t.x == 0x00 && t.pc == 0x0203 && t.p == 0x22 && t.cycles == some 4) = true := by decide

theorem test_L17 : runs (prog [0xBE, 0xF0, 0x12] (cells [(0x1300, 0x33)] { start with y := 0x10 }))
    (fun t => t.x == 0x33 && t.pc == 0x0203 && t.p == 0x20 && t.cycles == some 5) = true := by decide

theorem test_L18 : runs (prog [0xA0, 0x00] { start with y := 0x01 })
    (fun t => t.y == 0x00 && t.pc == 0x0202 && t.p == 0x22 && t.cycles == some 2) = true := by decide

theorem test_L19 : runs (prog [0xA4, 0x10] (cells [(0x0010, 0x90)] start))
    (fun t => t.y == 0x90 && t.pc == 0x0202 && t.p == 0xA0 && t.cycles == some 3) = true := by decide

theorem test_L20 : runs (prog [0xB4, 0x80] (cells [(0x0000, 0x11)] { start with x := 0x80 }))
    (fun t => t.y == 0x11 && t.pc == 0x0202 && t.p == 0x20 && t.cycles == some 4) = true := by decide

theorem test_L21 : runs (prog [0xAC, 0x34, 0x12] (cells [(0x1234, 0x7F)] start))
    (fun t => t.y == 0x7F && t.pc == 0x0203 && t.p == 0x20 && t.cycles == some 4) = true := by decide

theorem test_L22 : runs (prog [0xBC, 0xFF, 0xFF] (cells [(0x0000, 0x80)] { start with x := 0x01 }))
    (fun t => t.y == 0x80 && t.pc == 0x0203 && t.p == 0xA0 && t.cycles == some 5) = true := by decide

theorem test_L23 : runs (prog [0xA9, 0x00] { start with p := 0xFD })
    (fun t => t.a == 0x00 && t.pc == 0x0202 && t.p == 0x7F && t.cycles == some 2) = true := by decide

theorem test_T1 :
    runs (prog [0x85, 0x10] { start with a := 0x42, p := 0x20 })
      (fun t => t.pc == 0x0202 && t.p == 0x20 && t.a == 0x42 && t.peek 0x0010 == 0x42 &&
        t.cycles == some 3) = true := by decide

theorem test_T2 :
    runs (prog [0x85, 0x10] (cells [(0x0010, 0x55)] { start with a := 0x00, p := 0xA0 }))
      (fun t => t.pc == 0x0202 && t.p == 0xA0 && t.a == 0x00 && t.peek 0x0010 == 0x00 &&
        t.cycles == some 3) = true := by decide

theorem test_T3 :
    runs (prog [0x95, 0xF0] { start with a := 0x01, x := 0x20 })
      (fun t => t.pc == 0x0202 && t.p == 0x20 && t.a == 0x01 && t.x == 0x20 && t.peek 0x0010 == 0x01 &&
        t.cycles == some 4) = true := by decide

theorem test_T4 :
    runs (prog [0x8D, 0x00, 0x03] { start with a := 0xFF })
      (fun t => t.pc == 0x0203 && t.p == 0x20 && t.a == 0xFF && t.peek 0x0300 == 0xFF &&
        t.cycles == some 4) = true := by decide

theorem test_T5 :
    runs (prog [0x9D, 0xFF, 0x00] { start with a := 0x77, x := 0x01 })
      (fun t => t.pc == 0x0203 && t.p == 0x20 && t.a == 0x77 && t.x == 0x01 && t.peek 0x0100 == 0x77 &&
        t.cycles == some 5) = true := by decide

theorem test_T6 :
    runs (prog [0x9D, 0x00, 0x03] { start with a := 0x77, x := 0x01 })
      (fun t => t.pc == 0x0203 && t.p == 0x20 && t.a == 0x77 && t.x == 0x01 && t.peek 0x0301 == 0x77 &&
        t.cycles == some 5) = true := by decide

theorem test_T7 :
    runs (prog [0x99, 0x00, 0x03] { start with a := 0x12, y := 0x05 })
      (fun t => t.pc == 0x0203 && t.p == 0x20 && t.a == 0x12 && t.y == 0x05 && t.peek 0x0305 == 0x12 &&
        t.cycles == some 5) = true := by decide

theorem test_T8 :
    runs (prog [0x81, 0x20] (cells [(0x0024, 0x74), (0x0025, 0x20)] { start with a := 0xAB, x := 0x04 }))
      (fun t => t.pc == 0x0202 && t.p == 0x20 && t.a == 0xAB && t.x == 0x04 && t.peek 0x2074 == 0xAB &&
        t.cycles == some 6) = true := by decide

theorem test_T9 :
    runs (prog [0x91, 0x20] (cells [(0x0020, 0xF0), (0x0021, 0x12)] { start with a := 0x5A, y := 0x20 }))
      (fun t => t.pc == 0x0202 && t.p == 0x20 && t.a == 0x5A && t.y == 0x20 && t.peek 0x1310 == 0x5A &&
        t.cycles == some 6) = true := by decide

theorem test_T10 :
    runs (prog [0x86, 0x10] { start with x := 0x07 })
      (fun t => t.pc == 0x0202 && t.p == 0x20 && t.x == 0x07 && t.peek 0x0010 == 0x07 &&
        t.cycles == some 3) = true := by decide

theorem test_T11 :
    runs (prog [0x96, 0xFF] { start with x := 0x09, y := 0x02 })
      (fun t => t.pc == 0x0202 && t.p == 0x20 && t.x == 0x09 && t.y == 0x02 && t.peek 0x0001 == 0x09 &&
        t.cycles == some 4) = true := by decide

theorem test_T12 :
    runs (prog [0x8E, 0x34, 0x12] { start with x := 0x80 })
      (fun t => t.pc == 0x0203 && t.p == 0x20 && t.x == 0x80 && t.peek 0x1234 == 0x80 &&
        t.cycles == some 4) = true := by decide

theorem test_T13 :
    runs (prog [0x84, 0x10] { start with y := 0x01 })
      (fun t => t.pc == 0x0202 && t.p == 0x20 && t.y == 0x01 && t.peek 0x0010 == 0x01 &&
        t.cycles == some 3) = true := by decide

theorem test_T14 :
    runs (prog [0x94, 0x80] { start with y := 0x33, x := 0x90 })
      (fun t => t.pc == 0x0202 && t.p == 0x20 && t.y == 0x33 && t.x == 0x90 && t.peek 0x0010 == 0x33 &&
        t.cycles == some 4) = true := by decide

theorem test_T15 :
    runs (prog [0x8C, 0x00, 0x02] { start with y := 0xEE })
      (fun t => t.pc == 0x0203 && t.p == 0x20 && t.y == 0xEE && t.peek 0x0200 == 0xEE &&
        t.cycles == some 4) = true := by decide

theorem test_X1 : runs (prog [0xAA] { start with a := 0x80, x := 0x11 })
    (fun t => t.x == 0x80 && t.pc == 0x0201 && t.p == 0xA0 && t.a == 0x80 && t.cycles == some 2) = true := by decide

theorem test_X2 : runs (prog [0xAA] { start with a := 0x00, x := 0x11 })
    (fun t => t.x == 0x00 && t.pc == 0x0201 && t.p == 0x22 && t.a == 0x00 && t.cycles == some 2) = true := by decide

theorem test_X3 : runs (prog [0x8A] { start with x := 0x00, a := 0x55 })
    (fun t => t.a == 0x00 && t.pc == 0x0201 && t.p == 0x22 && t.x == 0x00 && t.cycles == some 2) = true := by decide

theorem test_X4 : runs (prog [0xA8] { start with a := 0x7F })
    (fun t => t.y == 0x7F && t.pc == 0x0201 && t.p == 0x20 && t.a == 0x7F && t.cycles == some 2) = true := by decide

theorem test_X5 : runs (prog [0x98] { start with y := 0xFF })
    (fun t => t.a == 0xFF && t.pc == 0x0201 && t.p == 0xA0 && t.y == 0xFF && t.cycles == some 2) = true := by decide

theorem test_X6 : runs (prog [0xBA] { start with sp := 0xFD })
    (fun t => t.x == 0xFD && t.pc == 0x0201 && t.p == 0xA0 && t.sp == 0xFD && t.cycles == some 2) = true := by decide

theorem test_X7 : runs (prog [0xBA] { start with sp := 0x00 })
    (fun t => t.x == 0x00 && t.pc == 0x0201 && t.p == 0x22 && t.sp == 0x00 && t.cycles == some 2) = true := by decide

theorem test_X8 : runs (prog [0x9A] { start with x := 0xFF, sp := 0x00, p := 0x22 })
    (fun t => t.sp == 0xFF && t.pc == 0x0201 && t.p == 0x22 && t.x == 0xFF && t.cycles == some 2) = true := by decide

theorem test_X9 : runs (prog [0x9A] { start with x := 0x00, sp := 0x80, p := 0xA0 })
    (fun t => t.sp == 0x00 && t.pc == 0x0201 && t.p == 0xA0 && t.x == 0x00 && t.cycles == some 2) = true := by decide

theorem test_K1 :
    runs (prog [0x48] { start with a := 0x42, sp := 0xFD })
      (fun t => t.sp == 0xFC && t.pc == 0x0201 && t.a == 0x42 && t.peek 0x01FD == 0x42 &&
        t.cycles == some 3) = true := by decide

theorem test_K2 :
    runs (prog [0x48] { start with a := 0x99, sp := 0x00 })
      (fun t => t.sp == 0xFF && t.pc == 0x0201 && t.a == 0x99 && t.peek 0x0100 == 0x99 &&
        t.cycles == some 3) = true := by decide

theorem test_K3 :
    runs (prog [0x08] { start with p := 0xA1, sp := 0xFF })
      (fun t => t.sp == 0xFE && t.p == 0xA1 && t.pc == 0x0201 && t.peek 0x01FF == 0xA1 &&
        t.cycles == some 3) = true := by decide

theorem test_K4 :
    runs (prog [0x08] { start with p := 0x30, sp := 0xFF })
      (fun t => t.sp == 0xFE && t.p == 0x30 && t.pc == 0x0201 && t.peek 0x01FF == 0x30 &&
        t.cycles == some 3) = true := by decide

theorem test_K5 : runs (prog [0x68] (cells [(0x01FD, 0x00)] { start with sp := 0xFC, p := 0x20 }))
    (fun t => t.a == 0x00 && t.sp == 0xFD && t.p == 0x22 && t.pc == 0x0201 && t.cycles == some 4) = true := by decide

theorem test_K6 : runs (prog [0x68] (cells [(0x0100, 0x80)] { start with sp := 0xFF, p := 0x20 }))
    (fun t => t.a == 0x80 && t.sp == 0x00 && t.p == 0xA0 && t.pc == 0x0201 && t.cycles == some 4) = true := by decide

theorem test_K7 : runs (prog [0x28] (cells [(0x01FF, 0xC3)] { start with sp := 0xFE, p := 0x20 }))
    (fun t => t.p == 0xE3 && t.sp == 0xFF && t.pc == 0x0201 && t.cycles == some 4) = true := by decide

theorem test_K9 : runs (prog [0x28] (cells [(0x01FF, 0xDF)] { start with sp := 0xFE, p := 0x20 }))
    (fun t => t.p == 0xFF && t.sp == 0xFF && t.pc == 0x0201 && t.cycles == some 4) = true := by decide

theorem test_H1 : runs (prog [0x0A] { start with a := 0x80 })
    (fun t => t.a == 0x00 && t.pc == 0x0201 && t.p == 0x23 && t.cycles == some 2) = true := by decide

theorem test_H6 : runs (prog [0x06, 0x10] (cells [(0x0010, 0x55)] start))
    (fun t => t.pc == 0x0202 && t.p == 0xA0 && t.peek 0x0010 == 0xAA && t.cycles == some 5) = true := by decide

theorem test_H7 :
    runs (prog [0x16, 0xF0] (cells [(0x0010, 0x80)] { start with x := 0x20 }))
      (fun t => t.pc == 0x0202 && t.p == 0x23 && t.x == 0x20 && t.peek 0x0010 == 0x00 &&
        t.cycles == some 6) = true := by decide

theorem test_H8 : runs (prog [0x0E, 0x00, 0x03] (cells [(0x0300, 0x01)] start))
    (fun t => t.pc == 0x0203 && t.p == 0x20 && t.peek 0x0300 == 0x02 && t.cycles == some 6) = true := by decide

theorem test_H9 :
    runs (prog [0x1E, 0xFF, 0x02] (cells [(0x0300, 0xC0)] { start with x := 0x01 }))
      (fun t => t.pc == 0x0203 && t.p == 0xA1 && t.x == 0x01 && t.peek 0x0300 == 0x80 &&
        t.cycles == some 7) = true := by decide

theorem test_H12 : runs (prog [0x4A] { start with a := 0xFF, p := 0xA0 })
    (fun t => t.a == 0x7F && t.pc == 0x0201 && t.p == 0x21 && t.cycles == some 2) = true := by decide

theorem test_H13 : runs (prog [0x4A] { start with a := 0x80, p := 0x21 })
    (fun t => t.a == 0x40 && t.pc == 0x0201 && t.p == 0x20 && t.cycles == some 2) = true := by decide

theorem test_H14 : runs (prog [0x46, 0x10] (cells [(0x0010, 0x03)] start))
    (fun t => t.pc == 0x0202 && t.p == 0x21 && t.peek 0x0010 == 0x01 && t.cycles == some 5) = true := by decide

theorem test_H15 :
    runs (prog [0x56, 0xFF] (cells [(0x0000, 0x80)] { start with x := 0x01 }))
      (fun t => t.pc == 0x0202 && t.p == 0x20 && t.x == 0x01 && t.peek 0x0000 == 0x40 &&
        t.cycles == some 6) = true := by decide

theorem test_H16 : runs (prog [0x4E, 0x00, 0x03] (cells [(0x0300, 0x01)] start))
    (fun t => t.pc == 0x0203 && t.p == 0x23 && t.peek 0x0300 == 0x00 && t.cycles == some 6) = true := by decide

theorem test_H17 :
    runs (prog [0x5E, 0x00, 0x03] (cells [(0x0305, 0xFE)] { start with x := 0x05 }))
      (fun t => t.pc == 0x0203 && t.p == 0x20 && t.x == 0x05 && t.peek 0x0305 == 0x7F &&
        t.cycles == some 7) = true := by decide

theorem test_H18 : runs (prog [0x0A] { start with a := 0x40, p := 0x7C })
    (fun t => t.a == 0x80 && t.pc == 0x0201 && t.p == 0xFC && t.cycles == some 2) = true := by decide

/-- With PENALTY_ON_WRITES a crossing store or shift costs one cycle more (T5, T9, H9). -/
theorem test_penalty_on_writes :
    (runs (prog [0x9D, 0xFF, 0x00] (tuned { penaltyOnWrites := true })) (fun t => t.cycles == some 6) &&
      runs (prog [0x1E, 0xFF, 0x02] (tuned { penaltyOnWrites := true })) (fun t => t.cycles == some 8)) = true := by
  decide

/-- With TXS_UPDATES_NZ the flags follow X (X8); with PHP_PUSH_OR_MASK = 0x10 Break is pushed as 1 (K3). -/
theorem test_txs_and_php_parameters :
    (runs (prog [0x9A] { tuned { txsUpdatesNZ := true } with x := 0xFF, p := 0x22 }) (fun t => t.p == 0xA0) &&
      runs (prog [0x08] { tuned { phpPushOrMask := 0x10 } with p := 0xA1 })
        (fun t => t.peek 0x01FF == 0xB1 && t.p == 0xA1)) = true := by decide

/-- Program 6: an instruction across the top of the address space, with its reads in order. -/
theorem test_program_6 :
    runs (prog [0xAD, 0x02, 0x00, 0x7F] { start with pc := 0xFFFF })
      (fun t => t.a == 0x7F && t.pc == 0x0002 && t.p == 0x20 && t.cycles == some 4 &&
        t.accesses == [.read 0xFFFF, .read 0x0000, .read 0x0001, .read 0x0002]) = true := by decide

/-- Program 4, step 2: the pointer of ($FF),Y has its high byte at 0x0000; five accesses. -/
theorem test_program_4_step_2 :
    runs (prog [0xB1, 0xFF] (cells [(0x00FF, 0xF8), (0x0000, 0x06), (0x0708, 0x02)] { start with y := 0x10 }))
      (fun t => t.a == 0x02 && t.cycles == some 6 &&
        t.accesses == [.read 0x0200, .read 0x0201, .read 0x00FF, .read 0x0000, .read 0x0708]) = true := by decide

/-! ## The resolver -/

/-- What a mode resolves to, from the first operand byte: the effective address, PC after it, the penalty. -/
def resolved (m : Mode) (s : State) : Option (Addr × Addr × Nat) :=
  match resolve m s with
  | .ok (some r) => some (r.ea, r.state.pc, r.penalty)
  | .ok none => none
  | .error _ => none

/-- Vectors M1, M4, M5, M7. -/
theorem test_resolve_page_zero_and_absolute :
    [resolved .imm (prog [0x80] { start with pc := 0x0201 }),
     resolved .zpx (prog [0xFF] { start with pc := 0x0201, x := 0xFF }),
     resolved .zpy (prog [0xFF] { start with pc := 0x0201, y := 0x01 }),
     resolved .abs (prog [0x34, 0x12] { start with pc := 0xFFFF })] =
    [some (0x0201, 0x0202, 0), some (0x00FE, 0x0202, 0), some (0x0000, 0x0202, 0), some (0x1234, 0x0001, 0)] := by decide

/-- Vectors M10, M11, M12, M13, M14. -/
theorem test_resolve_indexed :
    [resolved .abx (prog [0xFF, 0xFF] { start with x := 0x01 }),
     resolved .abx (prog [0x00, 0x12] { start with x := 0xFF }),
     resolved .abx (prog [0x01, 0x12] { start with x := 0xFF }),
     resolved .aby (prog [0xF0, 0x12] { start with y := 0x0F }),
     resolved .aby (prog [0xF0, 0x12] { start with y := 0x10 })] =
    [some (0x0000, 0x0202, 1), some (0x12FF, 0x0202, 0), some (0x1300, 0x0202, 1), some (0x12FF, 0x0202, 0),
     some (0x1300, 0x0202, 1)] := by decide

/-- Vectors M16, M20, M21, M22, M23. -/
theorem test_resolve_indirect :
    [resolved .izx (prog [0xFE] (cells [(0x00FF, 0x34), (0x0000, 0x12), (0x0100, 0x56)] { start with x := 0x01 })),
     resolved .izy (prog [0xFF] (cells [(0x00FF, 0xF8), (0x0000, 0x06), (0x0100, 0x99)] { start with y := 0x10 })),
     resolved .izy (prog [0x20] (cells [(0x0020, 0xFF), (0x0021, 0xFF)] { start with y := 0x01 })),
     resolved .ind (prog [0xFF, 0x02] (cells [(0x02FF, 0x34), (0x0300, 0x56)]
       { start with pc := 0x0400, mem := [(0x0200, 0x12)] })),
     resolved .ind (prog [0x20, 0x01] (cells [(0x0120, 0xFC), (0x0121, 0xBA)] start))] =
    [some (0x1234, 0x0201, 0), some (0x0708, 0x0201, 1), some (0x0000, 0x0201, 1), some (0x1234, 0x0402, 0),
     some (0xBAFC, 0x0202, 0)] := by decide

/-- Vectors M24, M25, M26, M27. -/
theorem test_resolve_relative :
    [resolved .rel (prog [0x05] { start with pc := 0x1001 }), resolved .rel (prog [0xFB] { start with pc := 0x1001 }),
     resolved .rel (prog [0x7F] { start with pc := 0x10F0 }), resolved .rel (prog [0x10] { start with pc := 0xFFFD })] =
    [some (0x1007, 0x1002, 0), some (0x0FFD, 0x1002, 1), some (0x1170, 0x10F1, 1), some (0x000E, 0xFFFE, 1)] := by decide

/-! ## The status register, the shift unit, power-on -/

/-- Vectors F1 to F6. -/
theorem test_status_bytes :
    [setZNByte 0x00 0x20, setZNByte 0x80 0x22, setZNByte 0x01 0xA2, setZNByte 0x7F 0xFF, setFlag .carry true 0x20,
      setFlag .overflow false 0xFF] = [0x22, 0xA0, 0x20, 0x7D, 0x21, 0xBF] := by decide

/-- Vectors F8, F9: the host's status setter. -/
theorem test_status_setter : (start.setStatus 0x00).p = 0x20 ∧ (start.setStatus 0xDF).p = 0xFF := by decide

/-- The source's shift examples (S6). -/
theorem test_shift_unit :
    shiftLeft 0x80 = (0x00, true) ∧ shiftRight 0x01 = (0x00, true) ∧ shiftRight 0x80 = (0x40, false) := by decide

/-- Power-on makes no access and forces Unused to 1 (70_reset_and_hazards.md R220). -/
theorem test_power_on :
    (State.powerOn { reset := { pc := 0x0200, sp := 0xFD, p := 0x04 } } [] 0).getters =
      ⟨0, 0, 0, 0x0200, 0xFD, 0x24⟩ := by decide

/-! ## Fatal conditions -/

/-- E1: the fault names the byte and its address; the core has stopped one byte further, after one read. -/
theorem test_E1 :
    stops (prog [0xEA] { start with pc := 0x0602, a := 0x01 })
      (fun f => f == .illegalOpcode 0xEA 0x0602
        { prog [0xEA] { start with pc := 0x0602, a := 0x01 } with
          pc := 0x0603, halted := some (.illegalOpcode 0xEA 0x0602), accesses := [.read 0x0602] }) = true := by decide

/-- E6: the data read of LDA $4000 where 0x4000 is unserviceable. -/
theorem test_E6 :
    stops (prog [0xAD, 0x00, 0x40] (holed 0x4000 1))
      (fun f => match f with
        | .memoryUnserviceable c u => c == .read 0x4000 && u.pc == 0x0203 && u.a == 0 && u.p == 0x20 &&
            u.halted == some (.memoryUnserviceable c) && u.accesses == [.read 0x0200, .read 0x0201, .read 0x0202]
        | .illegalOpcode _ _ _ => false) = true := by decide

/-- E7 and E8: on an unserviceable page 1 PHA leaves SP, and PLA has already incremented it. -/
theorem test_E7_E8 :
    (stops (prog [0x48] { holed 0x0100 256 with sp := 0xFD, a := 0x42 })
      (fun f => match f with
        | .memoryUnserviceable c u => c == .write 0x01FD 0x42 && u.sp == 0xFD && u.pc == 0x0201
        | .illegalOpcode _ _ _ => false) &&
     stops (prog [0x68] { holed 0x0100 256 with sp := 0xFD, a := 0x42 })
      (fun f => match f with
        | .memoryUnserviceable c u => c == .read 0x01FE && u.sp == 0xFE && u.a == 0x42 && u.p == 0x20
        | .illegalOpcode _ _ _ => false)) = true := by decide

/-- `start` on a platform that lists these windows. -/
def windowed (ws : List Region) : State := { start with config := { platform := { windows := ws } } }

/-- U15 and R130: a store to ROM is issued, and the cell stays. -/
theorem test_rom_ignores_a_store :
    runs (prog [0x8D, 0x00, 0x80] (cells [(0x8000, 0x7F)] { windowed [⟨0x8000, 0x8000, .ram, .ignored⟩] with a := 0x42 }))
      (fun t => t.peek 0x8000 == 0x7F && t.cycles == some 4 && t.accesses.getLast? == some (.write 0x8000 0x42)) = true := by
  decide

/-- R41: 2 KiB of cells that answer four times over from 0x0000 to 0x1FFF, for a load, a store and the fetch. -/
theorem test_mirrored_cells :
    let ws := [⟨0x0000, 0x2000, .mirror 0x0000 0x0000 0x0800, .mirror 0x0000 0x0000 0x0800⟩]
    (runs (prog [0xAD, 0x02, 0x18] (cells [(0x0002, 0x99)] (windowed ws))) (fun t => t.a == 0x99) &&
      runs (prog [0x8D, 0xFF, 0x1F] { windowed ws with a := 0x42 })
        (fun t => t.peek 0x07FF == 0x42 && t.peek 0x1FFF == 0x00) &&
      runs { cells [(0x0200, 0xAA)] (windowed ws) with pc := 0x0A00, a := 0x42 } (fun t => t.x == 0x42)) = true := by
  decide

/-- R41 and R47: a listed device whose two reads of one port differ, and that refuses a write. -/
theorem test_listed_device :
    let s := tuned { platform := {
      windows := [⟨0x4016, 1, .listed, .listed⟩]
      reads := [((0, 0x4016), some (0x41, 1)), ((1, 0x4016), some (0x40, 0))]
      writes := [((1, 0x4016, 0x00), some 0)] } }
    (runs (prog [0xAD, 0x16, 0x40] s) (fun t => t.a == 0x41 && t.device == 1) &&
      runs (prog [0xAD, 0x16, 0x40] { s with device := 1 }) (fun t => t.a == 0x40 && t.device == 0) &&
      runs (prog [0x8D, 0x16, 0x40] { s with device := 1 }) (fun t => t.device == 0) &&
      stops (prog [0x8D, 0x16, 0x40] s) (fun _ => true)) = true := by decide

/-- The host's question: a word stored with withFetchWord is what the first step after reset runs. -/
theorem test_with_fetch_word :
    runs (State.reset.withFetchWord 16 0x80A9) (fun t => t.a == 0x80 && t.p == 0xA0 && t.pc == 0x0002) = true := by decide

/-! ## Witnesses: states and operands that meet the hypotheses of the statements, one clause at a time -/

/-- PC at the last address, with the three bytes of LDA $0002 across the top. -/
def atTop : State := prog [0xAD, 0x02, 0x00] { start with pc := 0xFFFF }

/-- A core halted by an illegal byte. -/
def stopped : State := { start with halted := some (.illegalOpcode 0xEA 0x0602) }

/-- A pointer to 0x12F0 at 0x0020, and one across the end of page 0 to 0x06F8. -/
def pointers : State :=
  cells [(0x0020, 0xF0), (0x0021, 0x12), (0x00FF, 0xF8), (0x0000, 0x06)] { start with x := 0x10, y := 0x10 }

theorem start_inv : start.Inv := ⟨by decide, rfl, by decide⟩

theorem witness_DecodeAcceptsExactlyTheEncodings :
    decode [0xB1, 0xFF, 0x00] = .ok (.ldaIzy 0xFF, [0x00]) := by decide

theorem witness_IllegalOpcodeBytesAreRejected :
    (0x00 : Byte).toNat ∈ illegalBytes ∧ (0xFF : Byte).toNat ∈ illegalBytes ∧ lookupOpcode 0x0B = none := by decide

theorem witness_AssemblerAcceptsExactlyWellFormedLines :
    assemble ⟨.lda, .zp, 0xFF⟩ = some (.ldaZp 0xFF) ∧ (AsmLine.mk .lda .zp 0xFF).wellFormed = true := by decide

theorem witness_EncodingHasTheLengthOfItsMode :
    Instr.plp.mode ∈ [Mode.imp, .acc] ∧ (Instr.ldaIzy 0xFF).mode ∈ [Mode.imm, .zp, .zpx, .zpy, .izx, .izy] ∧
      (Instr.staAby 0xFFFF).mode ∈ [Mode.abs, .abx, .aby] :=
  ⟨(by decide : Mode.imp ∈ _), (by decide : Mode.izy ∈ _), (by decide : Mode.aby ∈ _)⟩

theorem witness_StepRunsTheDecodedInstruction :
    atTop.halted = none ∧
      decode [atTop.peek atTop.pc, atTop.peek (atTop.pc + 1), atTop.peek (atTop.pc + 2)] = .ok (.ldaAbs 0x0002, []) ∧
      ∀ k, k < (Instr.ldaAbs 0x0002).length → atTop.readService (atTop.pc + BitVec.ofNat 16 k) = .ram :=
  ⟨rfl, by decide, fun _ _ => rfl⟩

theorem witness_StepStopsOnAnIllegalOpcode :
    let s := prog [0xFF] { start with pc := 0xFFFF }
    s.halted = none ∧ s.readService s.pc = .ram ∧ (s.peek s.pc).toNat ∈ illegalBytes := by decide

theorem witness_UnserviceableFetchStopsTheStep_opcode :
    let s := { holed 0xFFFF 1 with pc := 0xFFFF }
    s.halted = none ∧ ∃ f, memRead s.pc { s with cycles := none, accesses := [] } = .error f := ⟨rfl, _, rfl⟩

theorem witness_UnserviceableFetchStopsTheStep_operand :
    let s := prog [0xA9, 0x80] (holed 0x0201 1)
    s.halted = none ∧ 2 ≤ (Instr.ldaImm 0x80).length ∧ (Instr.ldaImm 0x80).mode = .imm ∧
      ∃ u f, memRead s.pc { s with cycles := none, accesses := [] } = .ok ((Instr.ldaImm 0x80).opcode, u) ∧
        memRead (s.pc + 1) u = .error f := ⟨rfl, by decide, rfl, _, _, rfl, rfl⟩

theorem witness_UnserviceableFetchStopsTheStep_operand_of_zp :
    let s := prog [0xA5] { holed 0x0000 1 with pc := 0xFFFF }
    s.halted = none ∧ 2 ≤ (Instr.ldaZp 0x00).length ∧ (Instr.ldaZp 0x00).mode ≠ .imm ∧
      ∃ u f, memRead s.pc { s with cycles := none, accesses := [] } = .ok ((Instr.ldaZp 0x00).opcode, u) ∧
        memRead (s.pc + 1) u = .error f := ⟨rfl, by decide, by decide, _, _, rfl, rfl⟩

theorem witness_UnserviceableFetchStopsTheStep_high_byte :
    let s := prog [0xAD, 0x34] { holed 0x0000 1 with pc := 0xFFFE }
    s.halted = none ∧ (Instr.ldaAbs 0x1234).length = 3 ∧
      ∃ u v l f, memRead s.pc { s with cycles := none, accesses := [] } = .ok ((Instr.ldaAbs 0x1234).opcode, u) ∧
        memRead (s.pc + 1) u = .ok (l, v) ∧ memRead (s.pc + 2) v = .error f :=
  ⟨rfl, rfl, _, _, _, _, rfl, rfl, rfl⟩

theorem witness_HaltedCoreStaysHalted :
    stopped.halted = some (.illegalOpcode 0xEA 0x0602) ∧
      ∃ t, (HostCall.setPC 0x0200).run stopped = .next t := ⟨rfl, _, rfl⟩

theorem witness_PcMovesByTheInstructionLengthOnly :
    (∃ t, fetch8 atTop = .ok (0xAD, t)) ∧ (∃ t, exec (.ldaAbs 0x0002) atTop = .next t) ∧ ∃ t, step atTop = .next t :=
  ⟨⟨_, rfl⟩, ⟨_, rfl⟩, _, rfl⟩

theorem witness_FetchReadsAtPcAndAdvancesIt :
    let s := { holed 0x0000 1 with pc := 0xFFFF }
    atTop.readService atTop.pc = .ram ∧ atTop.readService (atTop.pc + 1) = .ram ∧
      (∃ v u, memRead atTop.pc atTop = .ok (v, u)) ∧
      (∃ l t h u, fetch8 atTop = .ok (l, t) ∧ fetch8 t = .ok (h, u)) ∧
      (∃ f, memRead (holed 0x0200 1).pc (holed 0x0200 1) = .error f) ∧
      ∃ l t f, fetch8 s = .ok (l, t) ∧ memRead (s.pc + 1) t = .error f :=
  ⟨rfl, rfl, ⟨_, _, rfl⟩, ⟨_, _, _, _, rfl, rfl⟩, ⟨_, rfl⟩, _, _, _, rfl, rfl⟩

theorem witness_StepIgnoresWhatEarlierStepsReturned : start.halted = none := rfl

/-- One access of TAX, and five of LDA ($FF),Y. -/
theorem witness_StepMakesOneToFiveAccesses :
    (∃ t, step (prog [0xAA] start) = .next t ∧ t.accesses.length = 1) ∧
      ∃ t, step (prog [0xB1, 0xFF] pointers) = .next t ∧ t.accesses.length = 5 :=
  ⟨⟨_, rfl, rfl⟩, _, rfl, rfl⟩

/-- The counts 2, 7, and 8 with PENALTY_ON_WRITES. -/
theorem witness_StepReturnsACountInItsRange :
    (tuned {}).config.baseCycles = [] ∧ (tuned {}).config.penaltyOnWrites = false ∧
      (∃ t, step (prog [0xAA] (tuned {})) = .next t ∧ t.cycles = some 2) ∧
      (∃ t, step (prog [0x1E, 0xFF, 0x02] (tuned {})) = .next t ∧ t.cycles = some 7) ∧
      ∃ t, step (prog [0x1E, 0xFF, 0x02] (tuned { penaltyOnWrites := true })) = .next t ∧ t.cycles = some 8 :=
  ⟨rfl, rfl, ⟨_, rfl, rfl⟩, ⟨_, rfl, rfl⟩, _, rfl, rfl⟩

/-- Entries for other opcodes only; and two entries for the opcode after one for another. -/
theorem witness_BaseCycleParameterDecidesTheCost :
    (∀ e ∈ (tuned { baseCycles := [(0xA5, 9)] }).config.baseCycles, e.1 ≠ 0xA9) ∧
      (tuned { baseCycles := [(0xA5, 9), (0xA9, 3), (0xA9, 4)] }).config.baseCycles =
        [(0xA5, 9)] ++ (0xA9, 3) :: [(0xA9, 4)] ∧ ∀ e ∈ [((0xA5 : Byte), 9)], e.1 ≠ 0xA9 := by decide

theorem witness_CycleCountAddsThePagePenalty :
    (tuned {}).config.platform.windows = [] ∧ (tuned {}).config.baseCycles = [] ∧ (tuned {}).x = 1 ∧
      (.a, abxForm (tuned {}) (.ldaAbx 0x00FF) 0x00FF 0xBD 4) ∈ loadForms (tuned {}) 0 0x00FF ∧
      (∃ t, exec (.ldaAbx 0x00FF) (tuned {}) = .next t) ∧ (∃ t, exec (.staAbx 0x00FF) (tuned {}) = .next t) ∧
      (∃ t, exec (.aslAbx 0x00FF) (tuned {}) = .next t) ∧ (.pla, 0x68, 4) ∈ operandless ∧
      (∃ t, exec .pla (tuned {}) = .next t) ∧ ∃ t, step (prog [0xAA] (tuned {})) = .next t :=
  ⟨rfl, rfl, rfl, by simp [loadForms], ⟨_, rfl⟩, ⟨_, rfl⟩, ⟨_, rfl⟩, by simp [operandless], ⟨_, rfl⟩, _, rfl⟩

theorem witness_DefaultPlatformServesEveryInstruction :
    atTop.config.platform.windows = [] ∧ atTop.halted = none ∧ (lookupOpcode (atTop.peek atTop.pc)).isSome ∧
      lookupOpcode (start.peek start.pc) = none ∧ start.halted = none :=
  ⟨rfl, rfl, by decide, rfl, rfl⟩

/-- A write, and the read of PLA, that the platform cannot service. -/
theorem witness_FailedAccessLeavesRegistersAlone :
    (∃ f, exec .pha (holed 0x0100 256) = .fault f) ∧ ∃ f, exec .pla { holed 0x0100 256 with sp := 0xFF } = .fault f :=
  ⟨⟨_, rfl⟩, _, rfl⟩

theorem witness_OnlyPlpChangesInterruptDecimalBreakOverflow :
    (∃ t, exec .pla start = .next t) ∧ Instr.pla ≠ .plp ∧ Instr.pla.mnemonic ≠ .asl ∧ Instr.pla.mnemonic ≠ .lsr :=
  ⟨⟨_, rfl⟩, by decide, by decide, by decide⟩

theorem witness_NoInstructionButPhpReadsTheFlags : Instr.aslAcc ≠ .php ∧ ∃ t, exec .aslAcc start = .next t :=
  ⟨by decide, _, rfl⟩

theorem witness_StepKeepsTheInvariant :
    (prog [0x48] pointers).Inv ∧ ∃ t, step (prog [0x48] pointers) = .next t := ⟨⟨by decide, rfl, by decide⟩, _, rfl⟩

theorem witness_CompletedRunKeepsTheInvariant :
    (prog [0x48, 0x68] start).Inv ∧ ∃ t, Completes 2 (prog [0x48, 0x68] start) t :=
  ⟨⟨by decide, rfl, by decide⟩, _, rfl⟩

theorem witness_FaultedRunLeavesACoreHaltedForGood :
    (prog [0xAA, 0xEA] start).halted = none ∧ ∃ f, FaultsWithin 2 (prog [0xAA, 0xEA] start) f := ⟨rfl, _, rfl⟩

theorem witness_FlagAccessorsTouchOneBit : Flag.carry ≠ .unused ∧ Flag.zero ≠ .carry := by decide

theorem witness_ResultsSetZeroAndNegative :
    (∃ t, exec (.ldaImm 0x00) start = .next t) ∧ (∃ t, exec .tsx start = .next t) ∧
      (∃ t, exec .lsrAcc start = .next t) ∧ (∃ t, exec (.aslZp 0x20) pointers = .next t) ∧
      Flag.carry ≠ .zero ∧ Flag.carry ≠ .negative :=
  ⟨⟨_, rfl⟩, ⟨_, rfl⟩, ⟨_, rfl⟩, ⟨_, rfl⟩, by decide, by decide⟩

theorem witness_UnusedAlwaysReadsOne :
    (∃ t, exec .php start = .next t) ∧ (∃ t, exec .plp start = .next t) ∧
      ∃ t, (HostCall.setStatus 0xDF).run start = .next t :=
  ⟨⟨_, rfl⟩, ⟨_, rfl⟩, _, rfl⟩

theorem witness_PlainCellReadsBackTheLastWrite :
    Memory.wf pointers.mem ∧ pointers.writeService 0xFFFF = .ram ∧ pointers.readService 0xFFFF = .ram ∧
      (0x0020 : Addr) ≠ 0xFFFF ∧ pointers.readService 0x0020 = .ram ∧ ∃ t, memWrite 0xFFFF 0x00 pointers = .ok t :=
  ⟨by decide, rfl, rfl, by decide, rfl, _, rfl⟩

/-- The same cells written in two orders. -/
theorem witness_CanonicalMemoriesThatReadAlikeAreEqual :
    let m := Memory.write (Memory.write [] 0xFFFF 0x01) 0x0000 0x02
    let n := Memory.write (Memory.write [] 0x0000 0x02) 0xFFFF 0x01
    m.wf ∧ n.wf ∧ ∀ a : Addr, m.read a.toNat = n.read a.toNat :=
  ⟨by decide, by decide, fun _ => rfl⟩

theorem witness_StoredBytesAreTheNextInstruction :
    let s := prog [0x8D, 0x02, 0x00] { start with pc := 0xFFFF, a := 0xAA }
    s.halted = none ∧ s.config.platform.windows = [] ∧ Memory.wf s.mem ∧
      decode [s.peek s.pc, s.peek (s.pc + 1), s.peek (s.pc + 2)] = .ok (.staAbs (s.pc + 3), []) ∧
      Instr.tax.length = 1 ∧ s.a = Instr.tax.opcode := by decide

theorem witness_ZeroPageModesStayInPageZero :
    let s := prog [0xFF] { start with pc := 0xFFFF, x := 0xFF, y := 0x01 }
    s.readService s.pc = .ram ∧ ∃ r, resolve .zpx s = .ok (some r) := ⟨rfl, _, rfl⟩

theorem witness_AbsoluteModesIndexAndReportPageCross :
    let s := prog [0xFF, 0xFF] { start with pc := 0xFFFF, x := 0x01 }
    s.readService s.pc = .ram ∧ s.readService (s.pc + 1) = .ram := by decide

/-- A pointer that ends in 0xFF, and one that does not. -/
theorem witness_IndirectModeKeepsThePointerPage :
    let s := prog [0xFF, 0x02] start
    let t := prog [0x20, 0x01] start
    s.readService s.pc = .ram ∧ s.readService (s.pc + 1) = .ram ∧ s.readService 0x02FF = .ram ∧
      s.readService 0x0200 = .ram ∧ concat (s.peek (s.pc + 1)) (s.peek s.pc) = 0x02FF ∧ lo 0x02FF = 0xFF ∧
      t.readService t.pc = .ram ∧ t.readService (t.pc + 1) = .ram ∧
      concat (t.peek (t.pc + 1)) (t.peek t.pc) = 0x0120 ∧ lo 0x0120 ≠ 0xFF := by decide

theorem witness_IndexedIndirectPointerWrapsInPageZero :
    let s := prog [0xEF] pointers
    s.readService s.pc = .ram ∧ s.peek s.pc + s.x = 0xFF ∧ s.readService (zext16 0xFF) = .ram ∧
      s.readService (zext16 (0xFF + 1)) = .ram := by decide

theorem witness_IndirectIndexedAddsYToAPageZeroPointer :
    let s := prog [0xFF] pointers
    s.readService s.pc = .ram ∧ s.peek s.pc = 0xFF ∧ s.readService (zext16 0xFF) = .ram ∧
      s.readService (zext16 (0xFF + 1)) = .ram := by decide

theorem witness_RelativeModeAddsASignedOffset :
    let s := prog [0x80] { start with pc := 0xFFFF }
    s.readService s.pc = .ram := by decide

/-- A load that reads and completes; a mode and a data read that fail; the value cases 0x00, 0x80, 0x01 and 0x7F. -/
theorem witness_LoadsFollowTheCommonRule :
    (.a, ⟨.ldaIzy 0x20, resolveIzy 0x20 pointers, 0xB1, 5⟩) ∈ loadsAny pointers 0x20 0 ∧
      (∃ m v u, resolveIzy 0x20 pointers = .ok m ∧ memRead m.ea m.state = .ok (v, u)) ∧
      (∃ f, resolveIzy 0x20 (holed 0x0020 1) = .error f) ∧
      (∃ m f, resolveAbs 0x4000 (holed 0x4000 1) = .ok m ∧ memRead m.ea m.state = .error f) ∧
      pointers.config.platform.windows = [] ∧
      ((.a, .ldaImm 0x00) ∈ (immediateLoads 0x00).map (fun r => (r.1, r.2.1))) ∧
      (∃ t, exec (.ldaImm 0x00) start = .next t ∧ t.getReg .a = 0x00) ∧
      (∃ t, exec (.ldaImm 0x80) start = .next t ∧ 0x80 ≤ (t.getReg .a).toNat) ∧
      (∃ t, exec (.ldaImm 0x01) start = .next t ∧ 0x01 ≤ (t.getReg .a).toNat ∧ (t.getReg .a).toNat ≤ 0x7F) ∧
      ∃ t, exec (.ldaImm 0x7F) start = .next t ∧ 0x01 ≤ (t.getReg .a).toNat ∧ (t.getReg .a).toNat ≤ 0x7F :=
  ⟨by simp [loadsAny], ⟨_, _, _, rfl, rfl⟩, ⟨_, rfl⟩, ⟨_, _, rfl, rfl⟩, rfl, by simp [immediateLoads],
    ⟨_, rfl, rfl⟩, ⟨_, rfl, by decide⟩, ⟨_, rfl, by decide, by decide⟩, _, rfl, by decide, by decide⟩

theorem witness_LoadsFromPlainCells :
    (.a, izyForm pointers (.ldaIzy 0xFF) 0xFF 0xB1 5) ∈ loadForms pointers 0xFF 0 ∧
      ∀ a ∈ [zext16 0xFF, zext16 (0xFF + 1)] ++ [pointerAt pointers 0xFF + zext16 pointers.y],
        pointers.readService a = .ram :=
  ⟨by simp [loadForms], fun _ _ => rfl⟩

theorem witness_StoresFollowTheCommonRule :
    (start.a, ⟨.staAbs 0xFFFF, resolveAbs 0xFFFF start, 0x8D, 4⟩) ∈ storesAny start 0 0xFFFF ∧
      (∃ m u, resolveAbs 0xFFFF start = .ok m ∧ memWrite m.ea start.a m.state = .ok u) ∧
      (∃ f, resolveIzx 0x20 (holed 0x0020 1) = .error f) ∧
      (∃ m f, resolveAbs 0x4000 (holed 0x4000 1) = .ok m ∧ memWrite m.ea 0x00 m.state = .error f) ∧
      ∃ t, exec (.staAbs 0xFFFF) start = .next t :=
  ⟨by simp [storesAny], ⟨_, _, rfl, rfl⟩, ⟨_, rfl⟩, ⟨_, _, rfl, rfl⟩, _, rfl⟩

theorem witness_StoresToPlainCells :
    (pointers.a, izxForm pointers (.staIzx 0xEF) 0xEF 0x81 6) ∈ storeForms pointers 0xEF 0 ∧
      (∀ a ∈ [zext16 0xFF, zext16 (0xFF + 1)], pointers.readService a = .ram) ∧
      pointers.writeService (pointerAt pointers 0xFF) = .ram :=
  ⟨by simp [storeForms], fun _ _ => rfl, rfl⟩

theorem witness_TransfersCopyAndSetFlags : (.x, start.sp, .tsx, 0xBA, 2) ∈ transfers start := by simp [transfers]

theorem witness_TransfersLeaveTheRestAlone :
    (.y, start.a, .tay, 0xA8, 2) ∈ transfers start ∧ start.config.baseCycles = [] := ⟨by simp [transfers], rfl⟩

theorem witness_PushWritesThenDecrements :
    let s := { start with sp := 0x00 }
    (∃ u, memWrite (stackAddr s.sp) 0x42 s = .ok u) ∧ s.writeService (stackAddr s.sp) = .ram ∧ s.sp = 0x00 ∧
      (∃ u, push 0x42 s = .ok u) ∧
      ∃ f, memWrite (stackAddr 0x00) 0x42 { holed 0x0100 1 with sp := 0x00 } = .error f :=
  ⟨⟨_, rfl⟩, rfl, rfl, ⟨_, rfl⟩, _, rfl⟩

theorem witness_PullIncrementsThenReads :
    start.readService (stackAddr (start.sp + 1)) = .ram ∧ start.sp = 0xFF ∧
      (∃ v u, memRead (stackAddr (start.sp + 1)) { start with sp := start.sp + 1 } = .ok (v, u)) ∧
      (∃ f, memRead (stackAddr (0xFF + 1)) { holed 0x0100 1 with sp := 0xFF + 1 } = .error f) ∧
      ∃ v u, pull start = .ok (v, u) :=
  ⟨rfl, rfl, ⟨_, _, rfl⟩, ⟨_, rfl⟩, _, _, rfl⟩

theorem witness_StackLawsHoldOnPlainCells :
    Memory.wf start.mem ∧
      (∀ sp : Byte, start.readService (stackAddr sp) = .ram ∧ start.writeService (stackAddr sp) = .ram) ∧
      (List.replicate 256 (0x42 : Byte)).length = 256 :=
  ⟨by decide, fun _ => ⟨rfl, rfl⟩, List.length_replicate⟩

theorem witness_PushesStoreTheRegister :
    let s := { start with sp := 0x00 }
    s.writeService (stackAddr s.sp) = .ram := by decide

theorem witness_PullsLoadTheRegister : start.sp = 0xFF ∧ start.readService (stackAddr (start.sp + 1)) = .ram := by decide

theorem witness_StackInstructionsLeaveTheRestAlone :
    (∃ t, exec .pha start = .next t) ∧ (∃ t, exec .php start = .next t) ∧ (∃ t, exec .pla start = .next t) ∧
      ∃ t, exec .plp start = .next t := ⟨⟨_, rfl⟩, ⟨_, rfl⟩, ⟨_, rfl⟩, _, rfl⟩

theorem witness_PushThenPullRestoresTheRegister :
    start.Inv ∧ start.readService (stackAddr start.sp) = .ram ∧ start.writeService (stackAddr start.sp) = .ram ∧
      start.config.phpPushOrMask = 0 := ⟨start_inv, rfl, rfl, rfl⟩

theorem witness_ShiftsOfPlainCells :
    (shiftLeft, abxForm pointers (.aslAbx 0xFFFF) 0xFFFF 0x1E 7) ∈ shiftForms pointers 0 0xFFFF ∧
      pointers.readService (0xFFFF + zext16 pointers.x) = .ram ∧
      pointers.writeService (0xFFFF + zext16 pointers.x) = .ram :=
  ⟨by simp [shiftForms], rfl, rfl⟩

theorem witness_ShiftsLeaveTheRestAlone :
    (shiftRight, ⟨.lsrAbs 0xFFFF, resolveAbs 0xFFFF start, 0x4E, 6⟩) ∈ shiftsAny start 0 0xFFFF ∧
      (∃ t, exec (.lsrAbs 0xFFFF) start = .next t) ∧ Instr.lsrAcc ∈ [Instr.aslAcc, .lsrAcc] ∧
      ∃ t, exec .lsrAcc start = .next t :=
  ⟨by simp [shiftsAny], ⟨_, rfl⟩, by decide, _, rfl⟩

/-- One window of each kind at the last addresses, beside a plain one, and an access that fails. -/
theorem witness_MemoryInterfaceAnswersByThePlatform :
    let s := windowed [⟨0xFFFF, 1, .device, .device⟩, ⟨0xFFFE, 1, .listed, .listed⟩,
      ⟨0xFFFD, 1, .mirror 0xFFF0 0xFFFF 2, .mirror 0xFFF0 0xFFFF 2⟩, ⟨0xFFFC, 1, .fixed 0x40, .ignored⟩,
      ⟨0xFFFB, 1, .unserviceable, .unserviceable⟩]
    s.readService 0xFFFF = .device ∧ s.writeService 0xFFFF = .device ∧ s.readService 0xFFFE = .listed ∧
      s.writeService 0xFFFE = .listed ∧ s.readService 0xFFFD = .mirror 0xFFF0 0xFFFF 2 ∧
      s.writeService 0xFFFD = .mirror 0xFFF0 0xFFFF 2 ∧ s.readService 0xFFFC = .fixed 0x40 ∧
      s.writeService 0xFFFC = .ignored ∧ s.readService 0xFFFB = .unserviceable ∧
      s.writeService 0xFFFB = .unserviceable ∧ s.readService 0xFFFA = .ram ∧ s.writeService 0xFFFA = .ram ∧
      (∃ f, memRead 0xFFFB s = .error f) ∧ ∃ f, memWrite 0xFFFB 0x42 s = .error f :=
  ⟨by decide, by decide, by decide, by decide, by decide, by decide, by decide, by decide, by decide, by decide,
    by decide, by decide, ⟨_, rfl⟩, _, rfl⟩

/-- The platform that any two functions make is the platform of a state, in any state of the devices. -/
theorem witness_MemoryInterfaceAnswersByThePlatform_functions (k : Nat) (read : Fin k → Addr → Option (Byte × Fin k))
    (write : Fin k → Addr → Byte → Option (Fin k)) (m : Fin k) :
    ∃ s : State, s.config.platform = Platform.ofFunctions k read write ∧ s.device = m.val :=
  ⟨{ tuned { platform := Platform.ofFunctions k read write } with device := m.val }, rfl, rfl⟩

/-- STA $0003 across the top of memory, over the operand of the LDX # that follows it. -/
theorem witness_WrittenBytesAreFetchedByTheNextStep :
    let s := prog [0x8D, 0x03, 0x00, 0xA2, 0x11] { start with pc := 0xFFFF, a := 0x77 }
    let cell := fun (a : Addr) => if a = 0x0003 then 0x77 else s.peek a
    (.staAbs 0x0003, 0x0003, s.a) ∈ writingForms s 0 0x0003 ∧ s.halted = none ∧ s.config.platform.windows = [] ∧
      Memory.wf s.mem ∧
      decode [s.peek s.pc, s.peek (s.pc + 1), s.peek (s.pc + 2)] = .ok (.staAbs 0x0003, []) ∧
      decode [cell 0x0002, cell 0x0003, cell 0x0004] = .ok (.ldxImm 0x77, [0x00]) :=
  ⟨by simp [writingForms, storeForms, absForm], rfl, rfl, by decide, by decide, by decide⟩

/-- PHA over the instruction that follows it. -/
theorem witness_WrittenBytesAreFetchedByTheNextStep_push :
    let s := prog [0x48] { start with pc := 0x0100, sp := 0x01, a := 0xAA }
    let cell := fun (a : Addr) => if a = 0x0101 then 0xAA else s.peek a
    (.pha, stackAddr s.sp, s.a) ∈ writingForms s 0 0 ∧ stackAddr s.sp = 0x0101 ∧ Memory.wf s.mem ∧
      decode [s.peek s.pc, s.peek (s.pc + 1), s.peek (s.pc + 2)] = .ok (.pha, [0x00, 0x00]) ∧
      decode [cell 0x0101, cell 0x0102, cell 0x0103] = .ok (.tax, [0x00, 0x00]) :=
  ⟨by simp [writingForms], by decide, by decide, by decide, by decide⟩

end Sys2Proof.Tests.Slice0
end

section
/-! The statements of 10_state.md: what a step leaves of PC, of P and of its own output fields. First the facts about
the state, the decoder and the meanings that they rest on. -/

namespace Sys2Proof.Machine

/-! ## What the operations leave alone -/

/-- Reads change no register, no flag and no parameter. -/
theorem AfterReads.sameRegisters {n : Nat} {s t : State} (h : AfterReads n s t) : SameRegisters s t := by
  obtain ⟨d, l, -, rfl⟩ := h
  constructor <;> rfl

/-- A serviced write changes no register, no flag and no parameter. -/
theorem memWrite_sameRegisters {a : Addr} {v : Byte} {s t : State} (h : memWrite a v s = .ok t) :
    SameRegisters s t := by
  obtain ⟨d, m, rfl, -, -⟩ := memWrite_ok h
  constructor <;> rfl

/-- A serviced write is the last access made. -/
theorem memWrite_getLast?_accesses {a : Addr} {v : Byte} {s t : State} (h : memWrite a v s = .ok t) :
    t.accesses.getLast? = some (.write a v) := by
  obtain ⟨d, m, rfl, -, -⟩ := memWrite_ok h
  simp

theorem push_pc {v : Byte} {s t : State} (h : push v s = .ok t) : t.pc = s.pc := by
  obtain ⟨u, hw, rfl⟩ := push_ok h
  exact (memWrite_sameRegisters hw).pc

theorem push_getLast?_accesses {v : Byte} {s t : State} (h : push v s = .ok t) :
    t.accesses.getLast? = some (.write (stackAddr s.sp) v) := by
  obtain ⟨u, hw, rfl⟩ := push_ok h
  exact (memWrite_getLast?_accesses hw :)

theorem pull_pc {v : Byte} {s t : State} (h : pull s = .ok (v, t)) : t.pc = s.pc :=
  (pull_ok h).sameRegisters.pc

theorem AfterFetch.pc {n : Nat} {s t : State} (h : AfterFetch n s t) : t.pc = s.pc + BitVec.ofNat 16 n := by
  obtain ⟨d, l, -, rfl⟩ := h
  rfl

@[simp] theorem State.getReg_setZN (s : State) (v : Byte) (r : Reg) : (s.setZN v).getReg r = s.getReg r := by
  cases r <;> rfl

@[simp] theorem State.getReg_returns (s : State) (n : Nat) (r : Reg) : (s.returns n).getReg r = s.getReg r := by
  cases r <;> rfl

/-! ## The shapes of the meanings -/

/-- The shape of the meaning of `i` in the state `s`: a load, a store or a memory shift over the address its mode
resolves; a value put into a register with its Z and N (the immediate loads and the transfers but TXS); an accumulator
shift; TXS; or one of the four stack instructions. -/
inductive ExecShape (i : Instr) (s : State) : Prop
  | load {k n : Nat} {r : Reg} {e : Res Resolved} (he : Resolves k s e) (h : exec i s = load r e n)
  | store {k n : Nat} {v : Byte} {e : Res Resolved} (he : Resolves k s e) (h : exec i s = store v e n)
  | shiftMem {k n : Nat} {unit : Byte → Byte × Bool} {e : Res Resolved} (he : Resolves k s e)
      (h : exec i s = shiftMem unit e n)
  | setReg {r : Reg} {v : Byte} {n : Nat} (h : exec i s = .next (((s.setReg r v).setZN v).returns n))
  | shiftAcc {unit : Byte → Byte × Bool} {n : Nat} (h : exec i s = shiftAcc unit n s)
  | txs (h : exec i s = execTxs s)
  | pha (h : exec i s = execPha s)
  | php (h : exec i s = execPhp s)
  | pla (h : exec i s = execPla s)
  | plp (h : exec i s = execPlp s)

/-- Every instruction's meaning has one of the shapes. -/
theorem exec_shape (i : Instr) (s : State) : ExecShape i s := by
  cases i with
  | ldaImm _ | ldxImm _ | ldyImm _ | tax | txa | tay | tya | tsx => exact .setReg rfl
  | ldaZp b | ldxZp b | ldyZp b => exact .load (resolves_zp b s) rfl
  | ldaZpx b | ldyZpx b => exact .load (resolves_zpx b s) rfl
  | ldxZpy b => exact .load (resolves_zpy b s) rfl
  | ldaAbs w | ldxAbs w | ldyAbs w => exact .load (resolves_abs w s) rfl
  | ldaAbx w | ldyAbx w => exact .load (resolves_abx w s) rfl
  | ldaAby w | ldxAby w => exact .load (resolves_aby w s) rfl
  | ldaIzx b => exact .load (resolves_izx b s) rfl
  | ldaIzy b => exact .load (resolves_izy b s) rfl
  | staZp b | stxZp b | styZp b => exact .store (resolves_zp b s) rfl
  | staZpx b | styZpx b => exact .store (resolves_zpx b s) rfl
  | stxZpy b => exact .store (resolves_zpy b s) rfl
  | staAbs w | stxAbs w | styAbs w => exact .store (resolves_abs w s) rfl
  | staAbx w => exact .store (resolves_abx w s) rfl
  | staAby w => exact .store (resolves_aby w s) rfl
  | staIzx b => exact .store (resolves_izx b s) rfl
  | staIzy b => exact .store (resolves_izy b s) rfl
  | aslZp b | lsrZp b => exact .shiftMem (resolves_zp b s) rfl
  | aslZpx b | lsrZpx b => exact .shiftMem (resolves_zpx b s) rfl
  | aslAbs w | lsrAbs w => exact .shiftMem (resolves_abs w s) rfl
  | aslAbx w | lsrAbx w => exact .shiftMem (resolves_abx w s) rfl
  | aslAcc | lsrAcc => exact .shiftAcc rfl
  | txs => exact .txs rfl
  | pha => exact .pha rfl
  | php => exact .php rfl
  | pla => exact .pla rfl
  | plp => exact .plp rfl

/-- The loads of the list are loads into its registers. -/
theorem exec_eq_load_of_mem {s : State} {b : Byte} {w : Addr} {rf : Reg × AnyForm} (h : rf ∈ loadsAny s b w) :
    exec rf.2.instr s = load rf.1 rf.2.resolve (s.baseCycles rf.2.opcode rf.2.cycles) := by
  revert rf
  simp only [loadsAny, List.forall_mem_cons]
  exact ⟨rfl, rfl, rfl, rfl, rfl, rfl, rfl, rfl, rfl, rfl, rfl, rfl, rfl, rfl, rfl, List.forall_mem_nil _⟩

/-- The shifts of the list are memory shifts with its units. -/
theorem exec_eq_shiftMem_of_mem {s : State} {b : Byte} {w : Addr} {uf : (Byte → Byte × Bool) × AnyForm}
    (h : uf ∈ shiftsAny s b w) :
    exec uf.2.instr s = shiftMem uf.1 uf.2.resolve (s.baseCycles uf.2.opcode uf.2.cycles) := by
  revert uf
  simp only [shiftsAny, List.forall_mem_cons]
  exact ⟨rfl, rfl, rfl, rfl, rfl, rfl, rfl, rfl, List.forall_mem_nil _⟩

/-- The immediate loads of the list load its value into its registers. -/
theorem exec_eq_loadImm_of_mem {v : Byte} {r : Reg × Instr × Byte × Nat} (h : r ∈ immediateLoads v) (s : State) :
    exec r.2.1 s = loadImm r.1 v (s.baseCycles r.2.2.1 r.2.2.2) s := by
  revert r
  simp only [immediateLoads, List.forall_mem_cons]
  exact ⟨rfl, rfl, rfl, List.forall_mem_nil _⟩

/-- The transfers of the list move its values into its registers. -/
theorem exec_eq_transfer_of_mem {s : State} {r : Reg × Byte × Instr × Byte × Nat} (h : r ∈ transfers s) :
    exec r.2.2.1 s = transfer r.1 r.2.1 (s.baseCycles r.2.2.2.1 r.2.2.2.2) s := by
  revert r
  simp only [transfers, List.forall_mem_cons]
  exact ⟨rfl, rfl, rfl, rfl, rfl, List.forall_mem_nil _⟩

/-! ## PC (10_state.md R12) -/

/-- No instruction's meaning changes PC. -/
theorem exec_pc {i : Instr} {s t : State} (h : exec i s = .next t) : t.pc = s.pc := by
  cases exec_shape i s with
  | load he hx =>
    obtain ⟨m, v, u, hm, hr, rfl⟩ := load_eq_next.mp (hx ▸ h)
    simp [(memRead_afterReads hr).sameRegisters.pc, (he.ok m hm).1.sameRegisters.pc]
  | store he hx =>
    obtain ⟨m, u, hm, hw, rfl⟩ := store_eq_next.mp (hx ▸ h)
    simp [(memWrite_sameRegisters hw).pc, (he.ok m hm).1.sameRegisters.pc]
  | shiftMem he hx =>
    obtain ⟨m, v, u, w, hm, hr, hw, rfl⟩ := shiftMem_eq_next.mp (hx ▸ h)
    simp [(memWrite_sameRegisters hw).pc, (memRead_afterReads hr).sameRegisters.pc, (he.ok m hm).1.sameRegisters.pc]
  | setReg hx =>
    cases hx.symm.trans h
    simp
  | shiftAcc hx =>
    cases hx.symm.trans h
    simp
  | txs hx =>
    cases hx.symm.trans h
    simp only [State.returns_pc]
    split <;> rfl
  | pha hx =>
    obtain ⟨u, hp, rfl⟩ := execPha_eq_next.mp (hx ▸ h)
    simp [push_pc hp]
  | php hx =>
    obtain ⟨u, hp, rfl⟩ := execPhp_eq_next.mp (hx ▸ h)
    simp [push_pc hp]
  | pla hx =>
    obtain ⟨v, u, hp, rfl⟩ := execPla_eq_next.mp (hx ▸ h)
    simp [pull_pc hp]
  | plp hx =>
    obtain ⟨v, u, hp, rfl⟩ := execPlp_eq_next.mp (hx ▸ h)
    simp [pull_pc hp]

end Sys2Proof.Machine

namespace Sys2Proof

/-- Every instruction that a format builds has as many operand bytes as the format reads (30_encoding.md R60, R61). -/
def Format.Fits : Format → Prop
  | .f1 i => i.mode.operandBytes = 0
  | .f2 build => ∀ b, (build b).mode.operandBytes = 1
  | .f3 build => ∀ w, (build w).mode.operandBytes = 2

theorem fits_of_mem_opcodeRows {row : Byte × Format} (h : row ∈ opcodeRows) : row.2.Fits := by
  revert row
  simp [opcodeRows, loadRows, storeRows, transferRows, stackRows, shiftRows, Format.Fits, Instr.mode,
    Mode.operandBytes]

theorem fits_of_lookupOpcode {b : Byte} {f : Format} (h : lookupOpcode b = some f) : f.Fits := by
  obtain ⟨l, k, hrows, -⟩ := List.lookup_eq_some_iff.mp h
  exact fits_of_mem_opcodeRows (row := (b, f)) (by simp [hrows])

end Sys2Proof

namespace Sys2Proof.Machine

/-- A format that fits fetches exactly the operand bytes of the instruction it builds. -/
theorem fetchOperand_afterFetch {f : Format} {s t : State} {i : Instr} (hf : f.Fits)
    (h : fetchOperand f s = .ok (i, t)) : AfterFetch i.mode.operandBytes s t := by
  cases f with
  | f1 j =>
    cases h
    rw [show i.mode.operandBytes = 0 from hf]
    exact ⟨s.device, [], rfl, by simp⟩
  | f2 build =>
    obtain ⟨⟨b, u⟩, hb, h⟩ := bind_eq_ok.mp h
    cases h
    exact hf b ▸ fetchByteOperand_afterFetch hb
  | f3 build =>
    obtain ⟨⟨w, u⟩, hw, h⟩ := bind_eq_ok.mp h
    cases h
    exact hf w ▸ fetch16_afterFetch hw

/-- A completed fetch of an instruction is one serviced fetch per byte of its length. -/
theorem fetchInstr_afterFetch {s t : State} {i : Instr} (h : fetchInstr s = .ok (i, t)) : AfterFetch i.length s t := by
  obtain ⟨⟨b, u⟩, hb, h⟩ := bind_eq_ok.mp h
  dsimp only at h
  split at h
  · cases h
  · next f hf => exact (fetch8_afterFetch hb).trans (fetchOperand_afterFetch (fits_of_lookupOpcode hf) h)

theorem length_mem (i : Instr) : i.length ∈ [1, 2, 3] := by
  unfold Instr.length
  cases i.mode <;> decide

/-- Settles O10: a step is a fetch, which moves PC by the length, and a meaning, which does not move it. -/
theorem pcMovesByTheInstructionLengthOnly : Obligations.PcMovesByTheInstructionLengthOnly := by
  refine ⟨fun s t b h => (fetch8_afterFetch h).pc, fun i s t h => exec_pc h, fun s t h => ?_⟩
  obtain ⟨-, i, u, hf, hx⟩ := step_eq_next.mp h
  exact ⟨i, u, hf, (exec_pc hx).trans (fetchInstr_afterFetch hf).pc, length_mem i⟩

/-! ## Z and N (10_state.md R18) -/

/-- Z and N of the status byte `p` are those of the value `v`. -/
def ZNOf (v p : Byte) : Prop := getFlag .zero p = decide (v = 0) ∧ getFlag .negative p = v.getLsbD 7

theorem znOf_setZNByte (v p : Byte) : ZNOf v (setZNByte v p) :=
  ⟨(getFlag_zero_setZNByte v p).trans (beq_eq_decide v 0), getFlag_negative_setZNByte v p⟩

/-- A value put into a register with its flags. -/
theorem znOf_setReg (s : State) (r : Reg) (v : Byte) (n : Nat) :
    ZNOf ((((s.setReg r v).setZN v).returns n).getReg r) (((s.setReg r v).setZN v).returns n).p := by
  simp [State.getReg_setReg_same, znOf_setZNByte]

theorem load_znOf {r : Reg} {e : Res Resolved} {n : Nat} {t : State} (h : load r e n = .next t) :
    ZNOf (t.getReg r) t.p := by
  obtain ⟨m, v, u, -, -, rfl⟩ := load_eq_next.mp h
  exact znOf_setReg ..

theorem shiftAcc_znOf {unit : Byte → Byte × Bool} {n : Nat} {s t : State} (h : shiftAcc unit n s = .next t) :
    ZNOf (t.getReg .a) t.p := by
  cases h
  exact znOf_setZNByte ..

/-- The value that a memory shift wrote is that of its last access, and Z and N are its. -/
theorem shiftMem_znOf {unit : Byte → Byte × Bool} {e : Res Resolved} {n : Nat} {t : State}
    (h : shiftMem unit e n = .next t) : ∃ a v, t.accesses.getLast? = some (.write a v) ∧ ZNOf v t.p := by
  obtain ⟨m, v, u, w, -, -, hw, rfl⟩ := shiftMem_eq_next.mp h
  exact ⟨m.ea, (unit v).1, (memWrite_getLast?_accesses hw :), znOf_setZNByte ..⟩

/-- Settles O29: each of these meanings ends in the one update of Z and N, by the value it gives its destination. -/
theorem resultsSetZeroAndNegative : Obligations.ResultsSetZeroAndNegative := by
  refine ⟨fun v p => ?_, fun p => ?_, fun s t b w ri hri h => ?_, fun s t b w uf huf h => ?_⟩
  · obtain ⟨hz, hn⟩ := znOf_setZNByte v p
    exact ⟨hz, hn, fun f => getFlag_setZNByte_other v p⟩
  · obtain ⟨hz, hn⟩ := znOf_setZNByte 0x00 p
    obtain ⟨hz', hn'⟩ := znOf_setZNByte 0x80 p
    exact ⟨hz, hn, hz', hn'⟩
  · simp only [List.mem_append, List.mem_map, List.mem_cons, List.not_mem_nil, or_false] at hri
    obtain ((⟨rf, hrf, rfl⟩ | ⟨r, hr, rfl⟩) | ⟨r, hr, rfl⟩) | rfl | rfl := hri
    · exact load_znOf ((exec_eq_load_of_mem hrf).symm.trans h)
    · cases (exec_eq_loadImm_of_mem hr s).symm.trans h
      exact znOf_setReg ..
    · cases (exec_eq_transfer_of_mem hr).symm.trans h
      exact znOf_setReg ..
    · exact shiftAcc_znOf (unit := shiftLeft) h
    · exact shiftAcc_znOf (unit := shiftRight) h
  · exact shiftMem_znOf ((exec_eq_shiftMem_of_mem huf).symm.trans h)

/-! ## Unused (10_state.md R19) -/

/-- P as it reads has Unused at 1. -/
theorem status_unused (s : State) : s.status.getLsbD 5 = true := unused_or_mask s.p

/-- The byte PHP writes is its last access, and has Unused at 1 whatever is OR-ed into it. -/
theorem execPhp_pushes_unused {s t : State} (h : execPhp s = .next t) :
    ∃ a v, t.accesses.getLast? = some (.write a v) ∧ v.getLsbD 5 = true := by
  obtain ⟨u, hp, rfl⟩ := execPhp_eq_next.mp h
  exact ⟨_, _, (push_getLast?_accesses hp :), by simp [status_unused]⟩

/-- Settles O30: a read of P is the status byte with Unused at 1, and every write of the whole of P is `setStatus` or
power-on, which force it to 1. -/
theorem unusedAlwaysReadsOne : Obligations.UnusedAlwaysReadsOne := by
  refine ⟨fun s => ⟨status_unused s, status_unused s⟩, fun s t h => execPhp_pushes_unused h, fun s t h => ?_,
    fun s t v h => ?_, fun c m d => rfl⟩
  · obtain ⟨v, u, hp, rfl⟩ := execPlp_eq_next.mp h
    exact ⟨v, u, hp, rfl⟩
  · cases h
    rfl

/-! ## The step as a function (10_state.md R32) -/

/-- A step forgets what the step before it returned. -/
theorem begin_outputs (s : State) (n : Option Nat) (l : List Access) :
    ({ s with cycles := n, accesses := l } : State).begin = s.begin := rfl

/-- The step of a core that is not halted, from its start. -/
theorem step_eq_of_begin_eq {s t : State} (hs : s.halted = none) (ht : t.halted = none) (h : s.begin = t.begin) :
    step s = step t := by
  simp only [step, hs, ht, h]

/-- Settles O12: the step starts by clearing both output fields. -/
theorem stepIgnoresWhatEarlierStepsReturned : Obligations.StepIgnoresWhatEarlierStepsReturned :=
  fun s n l h => step_eq_of_begin_eq h h (begin_outputs s n l)

end Sys2Proof.Machine
end

section
/-! The statements of 40_step_and_addressing.md about fetching and about the page-0, absolute and indirect modes. First
the arithmetic of addresses, the two operand bytes and the resolver on plain cells. -/

namespace Sys2Proof

/-! ## Address arithmetic (00_scope.md R5) -/

theorem concat_eq_append (h l : Byte) : concat h l = h ++ l := by
  apply BitVec.eq_of_toNat_eq
  have hh := h.isLt
  have hl := l.isLt
  rw [BitVec.toNat_append, ← Nat.shiftLeft_add_eq_or_of_lt hl, Nat.shiftLeft_eq]
  simp only [concat, BitVec.toNat_ofNat]
  omega

theorem lo_add_one (w : Addr) : lo (w + 1) = lo w + 1 := BitVec.setWidth_add w 1 (by decide)

/-- Adding one carries into the high byte only from a low byte of 0xFF. -/
theorem hi_add_one {w : Addr} (h : lo w ≠ 0xFF) : hi (w + 1) = hi w := by
  have hl : w.toNat % 256 ≠ 255 := fun hw => h (BitVec.eq_of_toNat_eq (by simpa [lo] using hw))
  have hw := w.isLt
  have h1 : (1 : Addr).toNat = 1 := rfl
  apply BitVec.eq_of_toNat_eq
  simp only [hi, BitVec.toNat_ofNat, BitVec.toNat_add, h1]
  omega

/-- Masking the low half of one word away and the high half of another. -/
theorem append_masks (h l k m : Byte) :
    ((h ++ l) &&& (BitVec.allOnes 8 ++ 0#8)) ||| ((k ++ m) &&& (0#8 ++ BitVec.allOnes 8)) = h ++ m := by
  simp only [BitVec.and_append, BitVec.or_append, BitVec.and_allOnes, BitVec.and_zero, BitVec.or_zero, BitVec.zero_or]

/-- The two masks of R97 take the high byte of one address and the low byte of another. -/
theorem masks_eq_concat (w v : Addr) : (w &&& 0xFF00) ||| (v &&& 0x00FF) = concat (hi w) (lo v) := by
  have h := append_masks (hi w) (lo w) (hi v) (lo v)
  rw [← concat_eq_append (hi w) (lo w), ← concat_eq_append (hi v), ← concat_eq_append (hi w),
    concat_hi_lo, concat_hi_lo] at h
  exact h

/-- The second pointer address of IND, as the model forms it and as R97 writes it. -/
theorem concat_hi_lo_add_one_eq_masks (w : Addr) :
    concat (hi w) (lo w + 1) = (w &&& 0xFF00) ||| ((w + 1) &&& 0x00FF) := by
  rw [masks_eq_concat, lo_add_one]

theorem concat_hi_lo_add_one_of_lo_ne {w : Addr} (h : lo w ≠ 0xFF) : concat (hi w) (lo w + 1) = w + 1 := by
  rw [← lo_add_one, ← hi_add_one h, concat_hi_lo]

/-- From the last address of a page it is the first. -/
theorem concat_hi_lo_add_one_of_lo_eq {w : Addr} (h : lo w = 0xFF) : concat (hi w) (lo w + 1) = w &&& 0xFF00 := by
  have hz : lo w + 1 = lo 0 := by rw [h]; rfl
  rw [hz, ← masks_eq_concat]
  exact BitVec.or_zero

namespace Machine

theorem zext16_add (b i : Byte) : zext16 (b + i) = BitVec.ofNat 16 ((b.toNat + i.toNat) % 256) := by
  rw [zext16, BitVec.toNat_add]

theorem add_zext16 (w : Addr) (i : Byte) : w + zext16 i = BitVec.ofNat 16 (w.toNat + i.toNat) := by
  simp [zext16, BitVec.ofNat_add]

/-- An indexed address with its sum and its penalty as R100 and R101 write them. -/
theorem indexed_eq (base : Addr) (i : Byte) (s : State) :
    indexed base i s = ⟨BitVec.ofNat 16 (base.toNat + i.toNat),
      if hi base = hi (BitVec.ofNat 16 (base.toNat + i.toNat)) then 0 else 1, s⟩ := by
  rw [← add_zext16]
  rfl

theorem indexed_zero (base : Addr) (s : State) : indexed base 0 s = ⟨base, 0, s⟩ := by
  have hbase : base + zext16 0 = base := BitVec.add_zero base
  simp only [indexed, hbase, crossPenalty_self]

/-! ## Fetching (R82) -/

theorem fetch8_of_memRead_ok {s u : State} {v : Byte} (h : memRead s.pc s = .ok (v, u)) :
    fetch8 s = .ok (v, { u with pc := s.pc + 1 }) := by
  simp only [fetch8, h, ok_bind, pure_eq_ok, (memRead_afterReads h).sameRegisters.pc]

theorem fetch8_of_memRead_error {s : State} {f : Fault} (h : memRead s.pc s = .error f) : fetch8 s = .error f := by
  simp only [fetch8, h, error_bind]

/-- After a first fetch that is serviced, two operand bytes are what the second fetch makes of them. -/
theorem fetch16_of_fetch8_ok {s t : State} {l : Byte} (h : fetch8 s = .ok (l, t)) :
    fetch16 s = (fetch8 t).map fun r => (concat r.1 l, r.2) := by
  simp only [fetch16, h, ok_bind]
  cases fetch8 t <;> rfl

/-- Two operand bytes in plain cells. -/
theorem fetch16_ram {s : State} (hl : s.readService s.pc = .ram) (hh : s.readService (s.pc + 1) = .ram) :
    fetch16 s = .ok (concat (s.peek (s.pc + 1)) (s.peek s.pc),
      { s with pc := s.pc + 2, accesses := s.accesses ++ [.read s.pc, .read (s.pc + 1)] }) := by
  rw [fetch16_of_fetch8_ok (fetch8_ram hl), fetch8_ram hh]
  simp only [Except.map, State.log, List.append_assoc, BitVec.add_assoc]
  rfl

/-- A read that fails raises MemoryUnserviceable for its address, with PC as it was. -/
theorem memRead_error_pc {a : Addr} {s : State} {f : Fault} (h : memRead a s = .error f) :
    ∃ u, f = .memoryUnserviceable (.read a) u ∧ u.pc = s.pc :=
  ⟨_, (memRead_error h).1, rfl⟩

/-- Settles O11: a fetch is one read of PC with PC moved past it, and two operand bytes are two fetches in a row. -/
theorem fetchReadsAtPcAndAdvancesIt : Obligations.FetchReadsAtPcAndAdvancesIt := by
  intro s
  refine ⟨fun h => fetch8_ram h, fetch16_ram, fun v u => fetch8_of_memRead_ok, fun l t h u hl hh => ?_, fun f h => ?_,
    fun l t f hl h => ?_⟩
  · rw [fetch16_of_fetch8_ok hl, hh]
    rfl
  · have hf := fetch8_of_memRead_error h
    exact ⟨hf, by simp only [fetch16, hf, error_bind], memRead_error_pc h⟩
  · have hpc : t.pc = s.pc + 1 := (fetch8_afterFetch hl).pc
    rw [← hpc] at h ⊢
    rw [fetch16_of_fetch8_ok hl, fetch8_of_memRead_error h]
    exact ⟨rfl, memRead_error_pc h⟩

/-! ## The resolver with its operand in plain cells -/

/-- A mode with one operand byte in a plain cell gives what its rule gives for that byte. -/
theorem resolveFetch8_ram {s : State} {f : Byte → State → Res Resolved} {r : Resolved}
    (h : s.readService s.pc = .ram)
    (hf : f (s.peek s.pc) { s with pc := s.pc + 1, accesses := s.accesses ++ [.read s.pc] } = .ok r) :
    resolveFetch8 f s = .ok (some r) := by
  rw [resolveFetch8, fetch8_ram h, ok_bind]
  exact congrArg (Except.map some) hf

/-- A mode with two operand bytes in plain cells gives what its rule gives for the operand they make. -/
theorem resolveFetch16_ram {s : State} {f : Addr → State → Res Resolved} {r : Resolved}
    (hl : s.readService s.pc = .ram) (hh : s.readService (s.pc + 1) = .ram)
    (hf : f (concat (s.peek (s.pc + 1)) (s.peek s.pc))
      { s with pc := s.pc + 2, accesses := s.accesses ++ [.read s.pc, .read (s.pc + 1)] } = .ok r) :
    resolveFetch16 f s = .ok (some r) := by
  rw [resolveFetch16, fetch16_ram hl hh, ok_bind]
  exact congrArg (Except.map some) hf

/-- IND with its pointer in plain cells (R97). -/
theorem resolveInd_ram {w : Addr} {s : State} (hl : s.readService w = .ram)
    (hh : s.readService (concat (hi w) (lo w + 1)) = .ram) :
    resolveInd w s = .ok ⟨concat (s.peek (concat (hi w) (lo w + 1))) (s.peek w), 0,
      { s with accesses := s.accesses ++ [.read w, .read (concat (hi w) (lo w + 1))] }⟩ := by
  simp only [resolveInd, memRead_ram hl, ok_bind, memRead_ram (s := s.log (.read w)) hh, pure_eq_ok]
  simp only [State.log, List.append_assoc]
  rfl

/-- An address that is a byte zero-extended is in page 0. -/
theorem hi_ea_of_eq_zext16 {x : Res (Option Resolved)} {b : Byte} {n : Nat} {t : State} {r : Resolved}
    (hx : x = .ok (some ⟨zext16 b, n, t⟩)) (hr : x = .ok (some r)) : hi r.ea = 0 := by
  cases hx.symm.trans hr
  exact hi_zext16 b

/-! ## The modes -/

/-- Settles O36: IND reads the pointer at its own address and at the next address in its page. -/
theorem indirectModeKeepsThePointerPage : Obligations.IndirectModeKeepsThePointerPage := by
  intro s hl hh ptr second
  have hsecond : concat (hi ptr) (lo ptr + 1) = second := concat_hi_lo_add_one_eq_masks ptr
  rw [← hsecond]
  refine ⟨fun hp hq => resolveFetch16_ram (f := resolveInd) hl hh ?_, concat_hi_lo_add_one_of_lo_ne,
    concat_hi_lo_add_one_of_lo_eq⟩
  refine (resolveInd_ram (by exact hp) (by exact hq)).trans ?_
  rw [List.append_assoc]
  rfl

/-- Settles O37: the operand plus X is a byte, and so is the next one, whose pointer is read in page 0. -/
theorem indexedIndirectPointerWrapsInPageZero : Obligations.IndexedIndirectPointerWrapsInPageZero := by
  intro s h p hp hq
  refine ⟨resolveFetch8_ram (f := resolveIzx) h ?_, fun hff => by rw [hff]; decide⟩
  refine (resolveIzx_ram (by exact hp) (by exact hq)).trans ?_
  rw [List.append_assoc]
  rfl

/-- Settles O34: each of the three modes gives a byte zero-extended, the index added to it as a byte. -/
theorem zeroPageModesStayInPageZero : Obligations.ZeroPageModesStayInPageZero := by
  intro s h b t
  have hzp : resolve .zp s = .ok (some ⟨zext16 b, 0, t⟩) := resolveFetch8_ram h rfl
  have hzpx : resolve .zpx s = .ok (some ⟨zext16 (b + s.x), 0, t⟩) := resolveFetch8_ram h rfl
  have hzpy : resolve .zpy s = .ok (some ⟨zext16 (b + s.y), 0, t⟩) := resolveFetch8_ram h rfl
  refine ⟨hzp, zext16_add b s.x ▸ hzpx, zext16_add b s.y ▸ hzpy, ?_⟩
  rintro r (hr | hr | hr)
  · exact hi_ea_of_eq_zext16 hzp hr
  · exact hi_ea_of_eq_zext16 hzpx hr
  · exact hi_ea_of_eq_zext16 hzpy hr

/-- Settles O35: ABX and ABY are `indexed` of the two operand bytes, whose penalty compares the high bytes. -/
theorem absoluteModesIndexAndReportPageCross : Obligations.AbsoluteModesIndexAndReportPageCross := by
  refine ⟨fun s hl hh => ⟨resolveFetch16_ram hl hh rfl, ?_, ?_⟩, fun w s => ⟨?_, rfl, rfl, rfl, rfl⟩⟩
  · exact resolveFetch16_ram (f := resolveAbx) hl hh (congrArg Except.ok (indexed_eq ..))
  · exact resolveFetch16_ram (f := resolveAby) hl hh (congrArg Except.ok (indexed_eq ..))
  · rw [indexed_zero]

end Machine

end Sys2Proof
end

section
/-! The statement of 41_load.md about every load on every platform. A load from memory and an immediate load end alike:
after reads only, one value is put into one register with its Z and N. -/

namespace Sys2Proof.Machine

/-! ## What the common ending of a load leaves alone (41_load.md R110) -/

/-- A value put into a register with its flags, after reads: nothing else that a load must keep has changed. -/
theorem sameButRegAndZN_setReg {k : Nat} {s u : State} (h : AfterReads k s u) (r : Reg) (v : Byte) (n : Nat) :
    SameButRegAndZN r s (((u.setReg r v).setZN v).returns n) := by
  obtain ⟨d, l, -, rfl⟩ := h
  constructor
  case regs =>
    intro q hq
    rw [State.getReg_returns, State.getReg_setZN, State.getReg_setReg_other _ _ _ hq]
    cases q <;> rfl
  case flags =>
    intro f hz hn
    simp [getFlag_setZNByte_other v _ hz hn]
  case memory => simp [State.peek]
  all_goals simp

/-- Z and N of a value in the three cases of 41_load.md R110: zero, bit 7 set, and neither. -/
theorem ZNOf.value_cases {v p : Byte} (h : ZNOf v p) :
    (v = 0x00 → getFlag .zero p = true ∧ getFlag .negative p = false) ∧
    (0x80 ≤ v.toNat → getFlag .zero p = false ∧ getFlag .negative p = true) ∧
    (0x01 ≤ v.toNat → v.toNat ≤ 0x7F → getFlag .zero p = false ∧ getFlag .negative p = false) := by
  obtain ⟨hz, hn⟩ := h
  have hmsb : v.getLsbD 7 = decide (0x80 ≤ v.toNat) := BitVec.msb_eq_decide v
  have hzero : v = 0 ↔ v.toNat = 0 := BitVec.toNat_inj.symm
  rw [hz, hn, hmsb]
  simp only [decide_eq_true_eq, decide_eq_false_iff_not, hzero]
  omega

/-! ## The loads on any platform -/

/-- Every load of the list goes through a mode of the resolver. -/
theorem resolves_of_mem_loadsAny {s : State} {b : Byte} {w : Addr} {rf : Reg × AnyForm} (h : rf ∈ loadsAny s b w) :
    ∃ k, Resolves k s rf.2.resolve := by
  revert rf
  simp only [loadsAny, List.forall_mem_cons]
  exact ⟨⟨_, resolves_zp b s⟩, ⟨_, resolves_zpx b s⟩, ⟨_, resolves_abs w s⟩, ⟨_, resolves_abx w s⟩,
    ⟨_, resolves_aby w s⟩, ⟨_, resolves_izx b s⟩, ⟨_, resolves_izy b s⟩,
    ⟨_, resolves_zp b s⟩, ⟨_, resolves_zpy b s⟩, ⟨_, resolves_abs w s⟩, ⟨_, resolves_aby w s⟩,
    ⟨_, resolves_zp b s⟩, ⟨_, resolves_zpx b s⟩, ⟨_, resolves_abs w s⟩, ⟨_, resolves_abx w s⟩, List.forall_mem_nil _⟩

/-- A load whose mode gives an address and whose data read is serviced: the flags start from those before the load. -/
theorem load_of_memRead_ok {k n : Nat} {s u : State} {r : Reg} {e : Res Resolved} {m : Resolved} {v : Byte}
    (he : Resolves k s e) (hm : e = .ok m) (hr : memRead m.ea m.state = .ok (v, u)) :
    load r e n = .next { u.setReg r v with p := setZNByte v s.p, cycles := some (n + m.penalty) } := by
  have hp : u.p = s.p := (((he.ok m hm).1).trans (memRead_afterReads hr)).sameRegisters.p
  rw [load_eq_next.mpr ⟨m, v, u, hm, hr, rfl⟩, ← hp, ← State.setReg_p u r v]
  rfl

/-- A load whose mode raises a fault is that fault. -/
theorem load_of_resolve_error {n : Nat} {r : Reg} {e : Res Resolved} {f : Fault} (he : e = .error f) :
    load r e n = .fault f :=
  finish_eq_fault.mpr (bind_eq_error.mpr (.inl he))

/-- A load whose data read raises a fault is that fault. -/
theorem load_of_memRead_error {n : Nat} {r : Reg} {e : Res Resolved} {m : Resolved} {f : Fault} (hm : e = .ok m)
    (hr : memRead m.ea m.state = .error f) : load r e n = .fault f :=
  finish_eq_fault.mpr (bind_eq_error.mpr (.inr ⟨m, hm, bind_eq_error.mpr (.inl hr)⟩))

/-- On flat RAM no access fails, after any reads. -/
theorem not_failedRead_flat {s : State} (h : s.config.platform.windows = []) (f : Fault) : ¬ FailedRead s f := by
  rintro ⟨n, u, a, hu, -, hr | hw⟩ <;> have hflat : u.config.platform.windows = [] := hu.sameRegisters.config ▸ h
  · exact hr (readService_flat hflat _)
  · exact hw (writeService_flat hflat _)

/-- On flat RAM every load completes. -/
theorem load_completes_flat {k n : Nat} {s : State} {e : Res Resolved} (r : Reg) (he : Resolves k s e)
    (h : s.config.platform.windows = []) : ∃ t, load r e n = .next t := by
  cases hx : load r e n with
  | next t => exact ⟨t, rfl⟩
  | fault f => exact absurd (load_fault he hx) (not_failedRead_flat h f)
  | refused x => exact absurd hx finish_ne_refused

/-- Everything a load that completes can do, from memory or immediate: after reads, a value put into its register with
its flags. -/
theorem exec_load_eq_next {s t : State} {b : Byte} {w : Addr} {ri : Reg × Instr}
    (hri : ri ∈ (loadsAny s b w).map (fun rf => (rf.1, rf.2.instr)) ++ (immediateLoads b).map (fun r => (r.1, r.2.1)))
    (h : exec ri.2 s = .next t) :
    ∃ k u v n, AfterReads k s u ∧ t = ((u.setReg ri.1 v).setZN v).returns n := by
  simp only [List.mem_append, List.mem_map] at hri
  obtain ⟨rf, hrf, rfl⟩ | ⟨r, hr, rfl⟩ := hri
  · obtain ⟨k, he⟩ := resolves_of_mem_loadsAny hrf
    obtain ⟨m, v, u, hm, hread, rfl⟩ := load_eq_next.mp ((exec_eq_load_of_mem hrf).symm.trans h)
    exact ⟨_, u, v, _, (he.ok m hm).1.trans (memRead_afterReads hread), rfl⟩
  · cases (exec_eq_loadImm_of_mem hr s).symm.trans h
    exact ⟨0, s, b, _, .refl s, rfl⟩

/-- Settles O41: a load from memory is `load` over its mode, and every load ends by putting one value into one register
with its Z and N. -/
theorem loadsFollowTheCommonRule : Obligations.LoadsFollowTheCommonRule := by
  refine fun s b w => ⟨fun rf hrf => ?_, fun ri hri t h => ?_⟩
  · obtain ⟨k, he⟩ := resolves_of_mem_loadsAny hrf
    rw [exec_eq_load_of_mem hrf]
    exact ⟨fun m v u => load_of_memRead_ok he, fun f => load_of_resolve_error, fun m f => load_of_memRead_error,
      load_completes_flat rf.1 he⟩
  · obtain ⟨k, u, v, n, hu, rfl⟩ := exec_load_eq_next hri h
    exact ⟨sameButRegAndZN_setReg hu ri.1 v n, (znOf_setReg u ri.1 v n).value_cases⟩

end Sys2Proof.Machine
end

section
/-! The statement of 43_transfer.md about what a transfer leaves alone. A transfer makes no access: it is a value put into
a register with its Z and N, and the count of its row. -/

namespace Sys2Proof.Machine

/-- A machine without entries of its own counts what the table says (40_step_and_addressing.md R86). -/
theorem State.baseCycles_of_no_entries {s : State} (h : s.config.baseCycles = []) (opcode : Byte) (n : Nat) :
    s.baseCycles opcode n = n := by
  simp [State.baseCycles, h]

/-- The table's entry for each transfer is 2 (43_transfer.md R150). -/
theorem cycles_of_mem_transfers {s : State} {r : Reg × Byte × Instr × Byte × Nat} (h : r ∈ transfers s) :
    r.2.2.2.2 = 2 := by
  revert r
  simp [transfers]

/-- Settles O46: after a transfer the state is that before it with the value, its Z and N, and the count put in. -/
theorem transfersLeaveTheRestAlone : Obligations.TransfersLeaveTheRestAlone := by
  intro s r hr
  have hexec : exec r.2.2.1 s = .next (((s.setReg r.1 r.2.1).setZN r.2.1).returns (s.baseCycles r.2.2.2.1 2)) := by
    rw [exec_eq_transfer_of_mem hr, cycles_of_mem_transfers hr]
    rfl
  obtain ⟨hzero, hnegative⟩ := znOf_setZNByte r.2.1 (s.setReg r.1 r.2.1).p
  refine ⟨_, hexec, ?value, hzero, hnegative, sameButRegAndZN_setReg (.refl s) .., ?mem, ?accesses, rfl, ?count⟩
  case value => simp [State.getReg_setReg_same]
  case mem => simp
  case accesses => simp
  case count =>
    intro hnone
    rw [State.returns_cycles, State.baseCycles_of_no_entries hnone]

end Sys2Proof.Machine
end

section
/-! The statements of 44_stack.md about the push/pull engine: what a push and a pull do on any platform, and what one
push and 256 pushes make of page 1 where its cells are plain. -/

namespace Sys2Proof.Machine

/-! ## Push and pull on any platform (44_stack.md R160, R161) -/

/-- After a write that is serviced, a push only has SP left to decrement. -/
theorem push_of_memWrite_ok {v : Byte} {s u : State} (h : memWrite (stackAddr s.sp) v s = .ok u) :
    push v s = .ok { u with sp := s.sp - 1 } := by
  simp only [push, h, ok_bind, pure_eq_ok, (memWrite_sameRegisters h).sp]

theorem push_of_memWrite_error {v : Byte} {s : State} {f : Fault} (h : memWrite (stackAddr s.sp) v s = .error f) :
    push v s = .error f := by
  simp only [push, h, error_bind]

theorem push_sp {v : Byte} {s t : State} (h : push v s = .ok t) : t.sp = s.sp - 1 := by
  obtain ⟨u, -, rfl⟩ := push_ok h
  rfl

/-- A write that fails raises MemoryUnserviceable for its address and value, with SP as it was. -/
theorem memWrite_error_sp {a : Addr} {v : Byte} {s : State} {f : Fault} (h : memWrite a v s = .error f) :
    ∃ u, f = .memoryUnserviceable (.write a v) u ∧ u.sp = s.sp :=
  ⟨_, (memWrite_error h).1, rfl⟩

/-- A read that fails raises MemoryUnserviceable for its address, with SP as it was. -/
theorem memRead_error_sp {a : Addr} {s : State} {f : Fault} (h : memRead a s = .error f) :
    ∃ u, f = .memoryUnserviceable (.read a) u ∧ u.sp = s.sp :=
  ⟨_, (memRead_error h).1, rfl⟩

/-- Reads change no cell. -/
theorem AfterReads.peek {n : Nat} {s t : State} (h : AfterReads n s t) (a : Addr) : t.peek a = s.peek a := by
  obtain ⟨d, l, -, rfl⟩ := h
  rfl

/-- A pull is one read, from the state with SP incremented. -/
theorem pull_eq_memRead (s : State) : pull s = memRead (stackAddr (s.sp + 1)) { s with sp := s.sp + 1 } := rfl

/-- Settles O48: a push is one write at SP, and SP moves only after a write that is serviced. -/
theorem pushWritesThenDecrements : Obligations.PushWritesThenDecrements := by
  refine fun s v => ⟨stackAddr_toNat s.sp, fun u => push_of_memWrite_ok, fun h => push_ram h, fun h0 => ?_,
    fun f h => ⟨push_of_memWrite_error h, memWrite_error_sp h⟩⟩
  refine ⟨by rw [h0]; rfl, fun u hu => ?_⟩
  have hsp : u.sp = 0xFF := by rw [push_sp hu, h0]; rfl
  exact ⟨hsp, by rw [hsp]; rfl⟩

/-- Settles O49: a pull is one read, and SP has moved before it. -/
theorem pullIncrementsThenReads : Obligations.PullIncrementsThenReads := by
  refine fun s => ⟨fun h => pull_ram h, fun hff => by rw [hff]; decide, fun v u h => (pull_eq_memRead s).trans h,
    fun f h => ⟨(pull_eq_memRead s).trans h, memRead_error_sp h⟩, fun v u h => ?_⟩
  have hu : AfterReads 1 { s with sp := s.sp + 1 } u := pull_ok h
  exact ⟨hu.sameRegisters.sp, hu.peek⟩

/-! ## The arithmetic of SP -/

theorem sub_ofNat_succ (sp : Byte) (k : Nat) : sp - 1 - BitVec.ofNat 8 k = sp - BitVec.ofNat 8 (k + 1) := by
  rw [Nat.add_comm, BitVec.ofNat_add]
  exact sub_sub sp 1 (BitVec.ofNat 8 k)

/-- Within 255 further pushes SP does not come back to a cell already used. -/
theorem stackAddr_ne_sub_ofNat_succ (sp : Byte) {k : Nat} (hk : k < 255) :
    stackAddr sp ≠ stackAddr (sp - BitVec.ofNat 8 (k + 1)) := by
  intro h
  have hsp := congrArg BitVec.toNat (stackAddr_injective h)
  have := sp.isLt
  simp only [BitVec.toNat_sub, BitVec.toNat_ofNat] at hsp
  omega

/-- No cell outside page 1 is a stack cell (10_state.md R14). -/
theorem hi_stackAddr (sp : Byte) : hi (stackAddr sp) = 0x01 := by
  apply BitVec.eq_of_toNat_eq
  have := sp.isLt
  have h1 : (0x01 : Byte).toNat = 1 := rfl
  simp only [hi, stackAddr_toNat, BitVec.toNat_ofNat, h1]
  omega

/-! ## The stack in plain cells (44_stack.md R166) -/

/-- Every cell of page 1 is plain, and memory is canonical. -/
structure PlainStack (s : State) : Prop where
  wf : Memory.wf s.mem
  readPlain : ∀ sp, s.readService (stackAddr sp) = .ram
  writePlain : ∀ sp, s.writeService (stackAddr sp) = .ram

/-- `t` is `s` with the bytes `vs` pushed, as far as SP and the cells tell: the `k`-th is in the cell `k` below the
starting SP modulo 256, and every cell that none of them is in is as before. -/
structure Pushed (vs : List Byte) (s t : State) : Prop where
  sp : t.sp = s.sp - BitVec.ofNat 8 vs.length
  cells : ∀ k < vs.length, vs[k]? = some (t.peek (stackAddr (s.sp - BitVec.ofNat 8 k)))
  others : ∀ a, (∀ k < vs.length, a ≠ stackAddr (s.sp - BitVec.ofNat 8 k)) → t.peek a = s.peek a

/-- One push on a plain stack writes the cell at the old SP, and leaves a plain stack. -/
theorem PlainStack.exists_push {s : State} (h : PlainStack s) (v : Byte) :
    ∃ t, push v s = .ok t ∧ PlainStack t ∧ t.sp = s.sp - 1 ∧ t.peek (stackAddr s.sp) = v ∧
      ∀ a, a ≠ stackAddr s.sp → t.peek a = s.peek a :=
  ⟨_, push_ram (h.writePlain s.sp), ⟨wf_poke s _ v h.wf, h.readPlain, h.writePlain⟩, rfl, peek_poke_same s _ v h.wf,
    fun _ => peek_poke_other s v⟩

/-- A pull on a plain stack gives the byte in the cell above SP. -/
theorem PlainStack.exists_pull {s : State} (h : PlainStack s) :
    ∃ u, pull s = .ok (s.peek (stackAddr (s.sp + 1)), u) ∧ u.sp = s.sp + 1 :=
  ⟨_, pull_ram (h.readPlain (s.sp + 1)), rfl⟩

/-- One push before at most 255 others: none of them reaches its cell. -/
theorem Pushed.cons {v : Byte} {vs : List Byte} {s t u : State} (hlen : vs.length < 256) (hsp : t.sp = s.sp - 1)
    (hv : t.peek (stackAddr s.sp) = v) (ht : ∀ a, a ≠ stackAddr s.sp → t.peek a = s.peek a) (hu : Pushed vs t u) :
    Pushed (v :: vs) s u := by
  obtain ⟨husp, hcells, hothers⟩ := hu
  simp only [hsp, sub_ofNat_succ] at husp hcells hothers
  refine ⟨husp, fun k hk => ?_, fun a ha => ?_⟩
  · cases k with
    | zero =>
      have htop : u.peek (stackAddr s.sp) = v :=
        (hothers _ fun k hk => stackAddr_ne_sub_ofNat_succ s.sp (by omega)).trans hv
      simp [htop]
    | succ k => exact hcells k (Nat.lt_of_succ_lt_succ hk)
  · have hfirst : a ≠ stackAddr s.sp := by simpa using ha 0 (Nat.succ_pos _)
    exact (hothers a fun k hk => ha (k + 1) (Nat.succ_lt_succ hk)).trans (ht a hfirst)

/-- Up to 256 pushes on a plain stack, by induction on the bytes. -/
theorem PlainStack.exists_pushAll {vs : List Byte} {s : State} (h : PlainStack s) (hlen : vs.length ≤ 256) :
    ∃ t, pushAll vs s = .ok t ∧ Pushed vs s t := by
  induction vs generalizing s with
  | nil => exact ⟨s, rfl, ⟨(BitVec.sub_zero _).symm, fun k hk => absurd hk k.not_lt_zero, fun _ _ => rfl⟩⟩
  | cons v vs ih =>
    obtain ⟨t, hpush, hplain, hsp, hv, ht⟩ := h.exists_push v
    obtain ⟨u, hall, hu⟩ := ih hplain (Nat.le_of_succ_le hlen)
    refine ⟨u, ?_, hu.cons hlen hsp hv ht⟩
    rw [pushAll, hpush, ok_bind, hall]

/-- Settles O50: a push and a pull meet at one cell, and 256 pushes go once round page 1. -/
theorem stackLawsHoldOnPlainCells : Obligations.StackLawsHoldOnPlainCells := by
  intro s hwf hram
  have hs : PlainStack s := ⟨hwf, fun sp => (hram sp).1, fun sp => (hram sp).2⟩
  refine ⟨fun v => ?_, fun vs hlen => ?_⟩
  · obtain ⟨t, hpush, hplain, hsp, hv, -⟩ := hs.exists_push v
    obtain ⟨u, hpull, husp⟩ := hplain.exists_pull
    have hback : t.sp + 1 = s.sp := by rw [hsp, BitVec.sub_add_cancel]
    rw [hback] at hpull husp
    rw [hv] at hpull
    exact ⟨t, hpush, hback ▸ hv, hv, hsp, u, hpull, husp⟩
  · obtain ⟨t, hall, hsp, hcells, hothers⟩ := hs.exists_pushAll hlen.le
    rw [hlen] at hsp hcells
    refine ⟨t, hall, hsp.trans (BitVec.sub_zero _), hcells, fun a ha => hothers a fun k _ hk => ha ?_⟩
    rw [hk, hi_stackAddr]

end Sys2Proof.Machine
end

section
/-! The statement of 45_shift.md about the shift unit, the arithmetic of a byte with no state in it. The unit multiplies
and divides by two; each result is the byte moved one place as a bit vector, from which both its value and its bits are
read off. -/

namespace Sys2Proof.Machine

/-- The left shift moves the byte up one place (45_shift.md R170). -/
theorem fst_shiftLeft (v : Byte) : (shiftLeft v).1 = v <<< 1 :=
  BitVec.eq_of_toNat_eq <| by simp [shiftLeft, Nat.shiftLeft_eq]

/-- The right shift moves the byte down one place (45_shift.md R171). -/
theorem fst_shiftRight (v : Byte) : (shiftRight v).1 = v >>> 1 :=
  BitVec.eq_of_toNat_eq <| by
    have := v.isLt
    simp only [shiftRight, BitVec.toNat_ofNat, BitVec.toNat_ushiftRight, Nat.shiftRight_eq_div_pow]
    omega

theorem getLsbD_fst_shiftLeft_zero (v : Byte) : (shiftLeft v).1.getLsbD 0 = false := by
  simp [fst_shiftLeft]

theorem getLsbD_fst_shiftLeft_succ (v : Byte) {k : Nat} (hk : k < 7) :
    (shiftLeft v).1.getLsbD (k + 1) = v.getLsbD k := by
  rw [fst_shiftLeft, BitVec.getLsbD_shiftLeft]
  simp [Nat.succ_lt_succ hk]

/-- Every bit of a right shift is the bit above it, and there is none above bit 7. -/
theorem getLsbD_fst_shiftRight (v : Byte) (k : Nat) : (shiftRight v).1.getLsbD k = v.getLsbD (k + 1) := by
  rw [fst_shiftRight, BitVec.getLsbD_ushiftRight, Nat.add_comm]

theorem getLsbD_fst_shiftRight_seven (v : Byte) : (shiftRight v).1.getLsbD 7 = false :=
  (getLsbD_fst_shiftRight v 7).trans (BitVec.getLsbD_of_ge v 8 le_rfl)

/-- Settles O55: a shift is the byte moved one place, and Negative after it is bit 7 of the result. -/
theorem shiftUnitMovesOneBit : Obligations.ShiftUnitMovesOneBit := by
  refine ⟨fun v => ⟨BitVec.toNat_ofNat .., rfl, getLsbD_fst_shiftLeft_zero v, fun k => getLsbD_fst_shiftLeft_succ v,
    ?_, rfl, getLsbD_fst_shiftRight_seven v, fun k _ => getLsbD_fst_shiftRight v k, fun p => ?_⟩, by decide, by decide⟩
  · rw [fst_shiftRight, BitVec.toNat_ushiftRight, Nat.shiftRight_eq_div_pow, pow_one]
  · rw [getFlag_negative_setZNByte, getLsbD_fst_shiftRight_seven]

end Sys2Proof.Machine
end

section
/-! The statements of 30_encoding.md: the decoder, the list of illegal bytes and the assembler. One relation says which
bytes make which instruction of a format; the decoder, the encoder and the assembler are each read through it. -/

namespace Sys2Proof

/-! ## The instructions of a format (30_encoding.md R61, R62) -/

/-- The operand bytes `bytes` make the instruction `i` of the format. -/
inductive Format.Makes : Format → List Byte → Instr → Prop
  | f1 (i : Instr) : Makes (.f1 i) [] i
  | f2 (build : Byte → Instr) (b : Byte) : Makes (.f2 build) [b] (build b)
  | f3 (build : Addr → Instr) (w : Addr) : Makes (.f3 build) [lo w, hi w] (build w)

/-- A format reads an instruction exactly from the operand bytes that make it. -/
theorem Format.read_eq_ok {f : Format} {l rest : List Byte} {i : Instr} :
    f.read l = .ok (i, rest) ↔ ∃ bytes, f.Makes bytes i ∧ l = bytes ++ rest := by
  constructor
  · intro h
    match f, l, h with
    | .f1 _, _, h => cases h; exact ⟨[], .f1 _, rfl⟩
    | .f2 build, b :: _, h => cases h; exact ⟨[b], .f2 build b, rfl⟩
    | .f3 build, k :: m :: _, h => cases h; exact ⟨_, .f3 build (concat m k), by simp⟩
  · rintro ⟨bytes, hi, rfl⟩
    cases hi with
    | f1 | f2 => rfl
    | f3 build w =>
      show Except.ok (build (concat (hi w) (lo w)), rest) = _
      rw [concat_hi_lo]

/-- Every instruction is made from its operand bytes by the row of its opcode byte. -/
theorem exists_makes (i : Instr) : ∃ f, lookupOpcode i.opcode = some f ∧ f.Makes i.operandEncoding i := by
  cases i with
  | ldaImm b | ldaZp b | ldaZpx b | ldaIzx b | ldaIzy b | ldxImm b | ldxZp b | ldxZpy b | ldyImm b | ldyZp b | ldyZpx b
  | staZp b | staZpx b | staIzx b | staIzy b | stxZp b | stxZpy b | styZp b | styZpx b
  | aslZp b | aslZpx b | lsrZp b | lsrZpx b => exact ⟨_, rfl, .f2 _ b⟩
  | ldaAbs w | ldaAbx w | ldaAby w | ldxAbs w | ldxAby w | ldyAbs w | ldyAbx w
  | staAbs w | staAbx w | staAby w | stxAbs w | styAbs w
  | aslAbs w | aslAbx w | lsrAbs w | lsrAbx w => exact ⟨_, rfl, .f3 _ w⟩
  | tax | txa | tay | tya | tsx | txs | pha | php | pla | plp | aslAcc | lsrAcc => exact ⟨_, rfl, .f1 _⟩

/-- Every instruction that the format makes is encoded as the opcode byte and its operand bytes. -/
def Format.Encodes (op : Byte) : Format → Prop
  | .f1 i => encode i = [op]
  | .f2 build => ∀ b, encode (build b) = [op, b]
  | .f3 build => ∀ w, encode (build w) = [op, lo w, hi w]

theorem encodes_of_mem_opcodeRows {row : Byte × Format} (h : row ∈ opcodeRows) : row.2.Encodes row.1 := by
  revert row
  simp only [opcodeRows, List.forall_mem_append, loadRows, storeRows, transferRows, stackRows, shiftRows,
    List.forall_mem_cons, List.not_mem_nil, IsEmpty.forall_iff, implies_true]
  simp only [Format.Encodes, encode, Instr.opcode, Instr.operandEncoding, implies_true, and_self]

theorem mem_opcodeRows_of_lookupOpcode {op : Byte} {f : Format} (h : lookupOpcode op = some f) :
    (op, f) ∈ opcodeRows := by
  obtain ⟨l, k, hrows, -⟩ := List.lookup_eq_some_iff.mp h
  simp [hrows]

/-- An instruction made by a row of the map is encoded as the row's opcode byte and the bytes it was made from. -/
theorem encode_of_makes {row : Byte × Format} {bytes : List Byte} {i : Instr} (hrow : row ∈ opcodeRows)
    (h : row.2.Makes bytes i) : encode i = row.1 :: bytes := by
  have he := encodes_of_mem_opcodeRows hrow
  obtain ⟨op, f⟩ := row
  cases h with
  | f1 => exact he
  | f2 _ b => exact he b
  | f3 _ w => exact he w

/-- What decodes begins with an opcode byte that selects a row, whose format reads the rest. -/
theorem decode_cons_eq_ok {op : Byte} {l rest : List Byte} {i : Instr} :
    decode (op :: l) = .ok (i, rest) ↔ ∃ f, lookupOpcode op = some f ∧ f.read l = .ok (i, rest) := by
  cases h : lookupOpcode op <;> simp [decode, h]

theorem decode_encode_append (i : Instr) (rest : List Byte) : decode (encode i ++ rest) = .ok (i, rest) := by
  obtain ⟨f, hf, hmakes⟩ := exists_makes i
  exact decode_cons_eq_ok.mpr ⟨f, hf, Format.read_eq_ok.mpr ⟨_, hmakes, rfl⟩⟩

/-- Settles O1: through the row of the opcode byte, whose format reads exactly the operand bytes. -/
theorem decodeAcceptsExactlyTheEncodings : Obligations.DecodeAcceptsExactlyTheEncodings := by
  refine fun bs rest i => ⟨fun h => ?_, fun h => h ▸ decode_encode_append i rest⟩
  cases bs with
  | nil => cases h
  | cons op l =>
    obtain ⟨f, hf, hread⟩ := decode_cons_eq_ok.mp h
    obtain ⟨bytes, hmakes, rfl⟩ := Format.read_eq_ok.mp hread
    rw [encode_of_makes (mem_opcodeRows_of_lookupOpcode hf) hmakes, List.cons_append]

/-- Settles O3: ten words, each decoded. -/
theorem writtenOutEncodingsDecode : Obligations.WrittenOutEncodingsDecode := by
  unfold Obligations.WrittenOutEncodingsDecode
  decide

/-! ## The illegal opcode bytes (30_encoding.md R67) -/

/-- The listed bytes are those without a row, in ascending order. -/
theorem illegalBytes_eq_filter :
    illegalBytes = (List.range 256).filter fun n => n ∉ opcodeRows.map fun row => row.1.toNat := by
  decide +kernel

theorem lookupOpcode_eq_none_iff {b : Byte} : lookupOpcode b = none ↔ b.toNat ∈ illegalBytes := by
  have hmem : b.toNat ∈ illegalBytes ↔ ∀ row ∈ opcodeRows, row.1.toNat ≠ b.toNat := by
    simp [illegalBytes_eq_filter, b.isLt]
  rw [hmem, lookupOpcode, List.lookup_eq_none_iff]
  refine forall₂_congr fun row _ => ?_
  rw [bne_iff_ne, Ne, Ne, BitVec.toNat_inj, eq_comm]

/-- Settles O2: the decoder looks the first byte up before it reads any other. -/
theorem illegalOpcodeBytesAreRejected : Obligations.IllegalOpcodeBytesAreRejected := by
  refine ⟨rfl, ?_, fun b => lookupOpcode_eq_none_iff, fun b rest h => ?_⟩
  · rw [illegalBytes_eq_filter]
    exact List.nodup_range.filter _
  · simp only [decode, lookupOpcode_eq_none_iff.mpr h]

/-! ## Mode, operand and length of an instruction (30_encoding.md R60, R65) -/

open Laws.EncodedForm in
/-- The lemmas of the constructors, as one about every instruction. -/
theorem encodedForm (i : Instr) : Statement i :=
  match i with
  | .ldaImm v => ldaImm v | .ldaZp b => ldaZp b | .ldaZpx b => ldaZpx b | .ldaAbs w => ldaAbs w
  | .ldaAbx w => ldaAbx w | .ldaAby w => ldaAby w | .ldaIzx b => ldaIzx b | .ldaIzy b => ldaIzy b
  | .ldxImm v => ldxImm v | .ldxZp b => ldxZp b | .ldxZpy b => ldxZpy b | .ldxAbs w => ldxAbs w | .ldxAby w => ldxAby w
  | .ldyImm v => ldyImm v | .ldyZp b => ldyZp b | .ldyZpx b => ldyZpx b | .ldyAbs w => ldyAbs w | .ldyAbx w => ldyAbx w
  | .staZp b => staZp b | .staZpx b => staZpx b | .staAbs w => staAbs w | .staAbx w => staAbx w
  | .staAby w => staAby w | .staIzx b => staIzx b | .staIzy b => staIzy b
  | .stxZp b => stxZp b | .stxZpy b => stxZpy b | .stxAbs w => stxAbs w
  | .styZp b => styZp b | .styZpx b => styZpx b | .styAbs w => styAbs w
  | .tax => tax | .txa => txa | .tay => tay | .tya => tya | .tsx => tsx | .txs => txs
  | .pha => pha | .php => php | .pla => pla | .plp => plp
  | .aslAcc => aslAcc | .aslZp b => aslZp b | .aslZpx b => aslZpx b | .aslAbs w => aslAbs w | .aslAbx w => aslAbx w
  | .lsrAcc => lsrAcc | .lsrZp b => lsrZp b | .lsrZpx b => lsrZpx b | .lsrAbs w => lsrAbs w | .lsrAbx w => lsrAbx w

theorem length_operandEncoding (i : Instr) : i.operandEncoding.length = i.mode.operandBytes :=
  (encodedForm i).2.2.1

theorem length_encode (i : Instr) : (encode i).length = i.length := by
  rw [encode, List.length_cons, length_operandEncoding, Instr.length, Nat.add_comm]

/-- No mnemonic of the hardware has the modes IND and REL (30_encoding.md R65). -/
theorem ind_and_rel_not_mem_modes (m : Mnemonic) : .ind ∉ m.modes ∧ .rel ∉ m.modes := by
  cases m <;> decide

/-- Settles O5: the length is one more than the operand bytes of the mode, and the encoding has as many. -/
theorem encodingHasTheLengthOfItsMode : Obligations.EncodingHasTheLengthOfItsMode := by
  intro i
  obtain ⟨hmode, -, -, -⟩ := encodedForm i
  obtain ⟨hind, hrel⟩ := ind_and_rel_not_mem_modes i.mnemonic
  refine ⟨length_encode i, ?_, ?_, ?_, fun h => hind (h ▸ hmode), fun h => hrel (h ▸ hmode)⟩
  all_goals
    unfold Instr.length
    cases i.mode <;> decide

/-! ## The assembler (30_encoding.md R70, R71) -/

/-- The mnemonic and the mode of a row, which its operand does not change. -/
def Format.variant (f : Format) : Mnemonic × Mode := ((f.build 0).mnemonic, (f.build 0).mode)

/-- The row builds its variant from every operand, and from one that fits an instruction with that operand. -/
def Format.BuildsItsVariant (f : Format) : Prop :=
  ∀ n, ((f.build n).mnemonic, (f.build n).mode) = f.variant ∧
    (n < 256 ^ (f.build n).mode.operandBytes → (f.build n).operand = n)

theorem buildsItsVariant_of_mem_opcodeRows {row : Byte × Format} (h : row ∈ opcodeRows) :
    row.2.BuildsItsVariant := by
  revert row
  simp only [opcodeRows, List.forall_mem_append, loadRows, storeRows, transferRows, stackRows, shiftRows,
    List.forall_mem_cons, List.not_mem_nil, IsEmpty.forall_iff, implies_true]
  simp +contextual [Format.BuildsItsVariant, Format.variant, Format.build, Instr.mnemonic, Instr.mode, Instr.operand,
    Mode.operandBytes, Nat.mod_eq_of_lt]

/-- No two rows have the same mnemonic and mode. -/
theorem nodup_variants : (opcodeRows.map fun row => row.2.variant).Nodup := by
  decide

theorem row_eq_of_variant_eq {r q : Byte × Format} (hr : r ∈ opcodeRows) (hq : q ∈ opcodeRows)
    (h : r.2.variant = q.2.variant) : r = q :=
  List.inj_on_of_nodup_map nodup_variants hr hq h

/-- Every mode of every mnemonic is the variant of a row. -/
theorem exists_row_of_mem_modes {n : Mnemonic} {m : Mode} (h : m ∈ n.modes) :
    ∃ row ∈ opcodeRows, row.2.variant = (n, m) := by
  have key : ∀ m ∈ n.modes, (n, m) ∈ opcodeRows.map fun row => row.2.variant := by
    cases n <;> decide
  simpa using key m h

theorem wellFormed_iff {l : AsmLine} :
    l.wellFormed = true ↔ l.mode ∈ l.mnemonic.modes ∧ l.operand < 256 ^ l.mode.operandBytes := by
  simp [AsmLine.wellFormed, AsmLine.variantExists, AsmLine.operandFits]

theorem instr_wellFormed (i : Instr) : i.wellFormed = true := by
  obtain ⟨hmode, hoperand, -, -⟩ := encodedForm i
  exact wellFormed_iff.mpr ⟨hmode, hoperand⟩

/-- What a format makes it builds too, from an operand that fits. -/
theorem exists_build_of_makes {f : Format} {bytes : List Byte} {i : Instr} (hf : f.Fits) (h : f.Makes bytes i) :
    ∃ n < 256 ^ i.mode.operandBytes, f.build n = i := by
  cases h with
  | f1 => exact ⟨0, Nat.pow_pos (by decide), rfl⟩
  | f2 build b => exact ⟨b.toNat, by rw [hf b]; exact b.isLt, by simp [Format.build]⟩
  | f3 build w => exact ⟨w.toNat, by rw [hf w]; exact w.isLt, by simp [Format.build]⟩

/-- Every instruction is built by a row from its own operand. -/
theorem exists_row_build (i : Instr) : ∃ row ∈ opcodeRows, row.2.build i.operand = i := by
  obtain ⟨f, hf, hmakes⟩ := exists_makes i
  obtain ⟨n, hn, rfl⟩ := exists_build_of_makes (fits_of_lookupOpcode hf) hmakes
  have hrow := mem_opcodeRows_of_lookupOpcode hf
  obtain ⟨-, hoperand⟩ := buildsItsVariant_of_mem_opcodeRows hrow n
  exact ⟨_, hrow, by rw [hoperand hn]⟩

/-- The assembler builds the instruction of the one row with the line's variant. -/
theorem assemble_eq_some {l : AsmLine} {i : Instr} :
    assemble l = some i ↔ l.wellFormed = true ∧
      ∃ row ∈ opcodeRows, row.2.variant = (l.mnemonic, l.mode) ∧ row.2.build l.operand = i := by
  have hvariant {row : Byte × Format} (h : row ∈ opcodeRows) :=
    (buildsItsVariant_of_mem_opcodeRows h l.operand).1
  unfold assemble
  split
  · next hl =>
    constructor
    · intro h
      obtain ⟨row, hrow, rfl⟩ := List.mem_map.mp (List.mem_of_find?_eq_some h)
      refine ⟨hl, row, hrow, ?_, rfl⟩
      rw [← hvariant hrow]
      simpa using List.find?_some h
    · rintro ⟨-, row, hrow, hv, rfl⟩
      cases h : List.find? _ _ with
      | none =>
        have hnone := List.find?_eq_none.mp h _ (List.mem_map_of_mem hrow)
        obtain ⟨hmnemonic, hmode⟩ := Prod.mk.inj ((hvariant hrow).trans hv)
        simp [hmnemonic, hmode] at hnone
      | some j =>
        obtain ⟨q, hq, rfl⟩ := List.mem_map.mp (List.mem_of_find?_eq_some h)
        have hfound : q.2.variant = (l.mnemonic, l.mode) := by
          rw [← hvariant hq]
          simpa using List.find?_some h
        rw [row_eq_of_variant_eq hq hrow (hfound.trans hv.symm)]
  · next hl => simp [hl]

/-- Settles O4: through the one row with the line's mnemonic and mode. -/
theorem assemblerAcceptsExactlyWellFormedLines : Obligations.AssemblerAcceptsExactlyWellFormedLines := by
  refine ⟨fun l i => ⟨fun h => ?_, ?_⟩, fun l => ⟨fun ⟨i, h⟩ => (assemble_eq_some.mp h).1, fun hl => ?_⟩,
    instr_wellFormed⟩
  · obtain ⟨hl, row, hrow, hv, rfl⟩ := assemble_eq_some.mp h
    obtain ⟨hbuilt, hoperand⟩ := buildsItsVariant_of_mem_opcodeRows hrow l.operand
    obtain ⟨hmnemonic, hmode⟩ := Prod.mk.inj (hbuilt.trans hv)
    obtain ⟨-, hfits⟩ := wellFormed_iff.mp hl
    rw [Instr.line, hmnemonic, hmode, hoperand (hmode ▸ hfits)]
  · rintro rfl
    obtain ⟨row, hrow, hbuild⟩ := exists_row_build i
    refine assemble_eq_some.mpr ⟨instr_wellFormed i, row, hrow, ?_, hbuild⟩
    rw [← (buildsItsVariant_of_mem_opcodeRows hrow i.operand).1, hbuild]
    rfl
  · obtain ⟨row, hrow, hv⟩ := exists_row_of_mem_modes (wellFormed_iff.mp hl).1
    exact ⟨_, assemble_eq_some.mpr ⟨hl, row, hrow, hv, rfl⟩⟩

end Sys2Proof
end

section
/-! The statements of 40_step_and_addressing.md and 60_exceptions.md about one fetch: what it makes of plain cells, of
an illegal byte and of a byte that is not serviced. -/

namespace Sys2Proof.Machine

/-! ## Fetching from plain cells -/

/-- The state with PC advanced over `n` bytes and their reads, in ascending order, appended to the accesses. -/
def State.advanced (s : State) (n : Nat) : State :=
  { s with
    pc := s.pc + BitVec.ofNat 16 n
    accesses := s.accesses ++ (List.range n).map fun k => Access.read (s.pc + BitVec.ofNat 16 k) }

theorem pc_add_add (a : Addr) (m n : Nat) :
    a + BitVec.ofNat 16 m + BitVec.ofNat 16 n = a + BitVec.ofNat 16 (m + n) := by
  rw [BitVec.add_assoc, BitVec.ofNat_add]

theorem pc_add_one_add_one (a : Addr) : a + 1 + 1 = a + 2 := by
  rw [BitVec.add_assoc]
  rfl

theorem State.advanced_advanced (s : State) (m n : Nat) : (s.advanced m).advanced n = s.advanced (m + n) := by
  simp [State.advanced, pc_add_add, List.range_add]

theorem State.advanced_zero (s : State) : s.advanced 0 = s := by
  simp [State.advanced]

theorem fetch8_advanced {s : State} (h : s.readService s.pc = .ram) : fetch8 s = .ok (s.peek s.pc, s.advanced 1) := by
  simp [fetch8_ram h, State.advanced, State.log]

/-- The operand bytes of an instruction in plain cells. -/
theorem fetchOperand_ram {f : Format} {s : State} {i : Instr} {rest : List Byte} (hf : f.Fits)
    (hread : f.read [s.peek s.pc, s.peek (s.pc + 1)] = .ok (i, rest))
    (hplain : ∀ k < i.mode.operandBytes, s.readService (s.pc + BitVec.ofNat 16 k) = .ram) :
    fetchOperand f s = .ok (i, s.advanced i.mode.operandBytes) := by
  have hfirst (h : 0 < i.mode.operandBytes) : s.readService s.pc = .ram := by simpa using hplain 0 h
  cases f with
  | f1 j =>
    cases hread
    rw [show i.mode.operandBytes = 0 from hf, State.advanced_zero]
    rfl
  | f2 build =>
    cases hread
    rw [hf] at hfirst ⊢
    simp only [fetchOperand, fetchByteOperand_ram (hfirst (by decide)), ok_bind, pure_eq_ok]
    simp [State.advanced, State.log]
  | f3 build =>
    cases hread
    rw [hf] at hfirst hplain ⊢
    simp only [fetchOperand, fetch16_ram (hfirst (by decide)) (hplain 1 (by decide)), ok_bind, pure_eq_ok]
    simp [State.advanced, List.range_succ]

/-- The bytes of an instruction in plain cells. -/
theorem fetchInstr_ram {s : State} {i : Instr} {rest : List Byte}
    (hdecode : decode [s.peek s.pc, s.peek (s.pc + 1), s.peek (s.pc + 2)] = .ok (i, rest))
    (hplain : ∀ k < i.length, s.readService (s.pc + BitVec.ofNat 16 k) = .ram) :
    fetchInstr s = .ok (i, s.advanced i.length) := by
  obtain ⟨f, hf, hread⟩ := decode_cons_eq_ok.mp hdecode
  have hpc : s.readService s.pc = .ram := by simpa using hplain 0 (Nat.le_add_right 1 _)
  have hoperand : fetchOperand f (s.advanced 1) = .ok (i, (s.advanced 1).advanced i.mode.operandBytes) := by
    refine fetchOperand_ram (fits_of_lookupOpcode hf) (rest := rest) ?_ fun k hk => ?_
    · show f.read [s.peek (s.pc + 1), s.peek (s.pc + 1 + 1)] = _
      rw [pc_add_one_add_one, hread]
    · show s.readService (s.pc + BitVec.ofNat 16 1 + BitVec.ofNat 16 k) = .ram
      rw [pc_add_add]
      exact hplain (1 + k) (Nat.add_lt_add_left hk 1)
  simp only [fetchInstr, fetch8_advanced hpc, ok_bind, hf, hoperand, State.advanced_advanced]
  rfl

/-- A step over plain cells runs the instruction they decode to. -/
theorem step_eq_exec_of_decode {s : State} {i : Instr} {rest : List Byte} (hrun : s.halted = none)
    (hdecode : decode [s.peek s.pc, s.peek (s.pc + 1), s.peek (s.pc + 2)] = .ok (i, rest))
    (hplain : ∀ k < i.length, s.readService (s.pc + BitVec.ofNat 16 k) = .ram) :
    step s = exec i (s.begin.advanced i.length) := by
  have hfetch : fetchInstr s.begin = .ok (i, s.begin.advanced i.length) := fetchInstr_ram hdecode hplain
  simp only [step, hrun, hfetch]

/-- Settles O6: the opcode byte and the operand bytes are each one fetch from a plain cell. -/
theorem stepRunsTheDecodedInstruction : Obligations.StepRunsTheDecodedInstruction :=
  fun _ _ _ hrun hdecode hplain => step_eq_exec_of_decode hrun hdecode hplain

/-! ## Steps that a fetch stops -/

/-- A step whose fetch raises a fault is that fault. -/
theorem step_eq_fault_of_fetchInstr {s : State} {f : Fault} (hrun : s.halted = none)
    (h : fetchInstr s.begin = .error f) : step s = .fault f := by
  simp only [step, hrun, h]

/-- A byte in a plain cell with no row of the opcode map is raised with PC past it. -/
theorem fetchInstr_illegal {s : State} (h : s.readService s.pc = .ram) (hrow : lookupOpcode (s.peek s.pc) = none) :
    fetchInstr s = .error (raise (.illegalOpcode (s.peek s.pc) s.pc) (s.advanced 1)) := by
  simp only [fetchInstr, fetch8_advanced h, ok_bind, hrow]

/-- Settles O7: the illegal byte is raised right after its own fetch. -/
theorem stepStopsOnAnIllegalOpcode : Obligations.StepStopsOnAnIllegalOpcode := by
  intro s hrun hplain hillegal
  rw [step_eq_fault_of_fetchInstr hrun (fetchInstr_illegal hplain (lookupOpcode_eq_none_iff.mpr hillegal))]
  simp [raise, HaltCause.report, State.advanced, State.begin, State.peek]

/-- What the platform answers to a read: the byte and the devices' next state, or none for `Unserviceable`. -/
def State.readAnswer (s : State) (a : Addr) : Option (Byte × Nat) :=
  match s.readService a with
  | .ram => some (s.peek a, s.device)
  | .mirror first cell period => some (s.peek (mirrorCell first cell period a), s.device)
  | .fixed v => some (v, s.device)
  | .listed => s.config.platform.read s.device a
  | .device => Config.deviceRead s.device a
  | .unserviceable => none

/-- A read is the platform's answer, which looks at the parameters, the cells and the devices alone. -/
theorem memRead_eq_answerRead (a : Addr) (s : State) : memRead a s = answerRead a s (s.readAnswer a) := by
  cases h : s.readService a <;> simp only [memRead, State.readAnswer, h] <;> rfl

theorem memRead_ok_setPC {a : Addr} {s t : State} {v : Byte} (h : memRead a s = .ok (v, t)) (q : Addr) :
    memRead a { s with pc := q } = .ok (v, { t with pc := q }) := by
  rw [memRead_eq_answerRead] at h ⊢
  show answerRead a { s with pc := q } (s.readAnswer a) = _
  cases hr : s.readAnswer a <;> rw [hr] at h <;> cases h
  rfl

theorem memRead_error_setPC {a : Addr} {s : State} {f : Fault} (h : memRead a s = .error f) (q : Addr) :
    memRead a { s with pc := q } = .error (raise (.memoryUnserviceable (.read a)) { s with pc := q }) := by
  rw [memRead_eq_answerRead] at h ⊢
  show answerRead a { s with pc := q } (s.readAnswer a) = _
  cases hr : s.readAnswer a <;> rw [hr] at h <;> cases h
  rfl

/-- After the read of an opcode byte with a row, a fetch is the fetch of the operand bytes. -/
theorem fetchInstr_of_memRead_ok {s u : State} {op : Byte} {f : Format} (h : memRead s.pc s = .ok (op, u))
    (hf : lookupOpcode op = some f) : fetchInstr s = fetchOperand f { u with pc := s.pc + 1 } := by
  simp only [fetchInstr, fetch8_of_memRead_ok h, ok_bind, hf]

/-- An operand byte whose read fails: in IMM PC is already past it, in the other modes it is still at it. -/
theorem fetchByteOperand_of_memRead_error {m : Mode} {s : State} {f : Fault} (h : memRead s.pc s = .error f) :
    fetchByteOperand m s = .error
      (raise (.memoryUnserviceable (.read s.pc)) { s with pc := if m = .imm then s.pc + 1 else s.pc }) := by
  unfold fetchByteOperand
  split
  · exact memRead_error_setPC h (s.pc + 1)
  · rw [fetch8_of_memRead_error h, (memRead_error h).1]

/-- The first operand byte of an instruction cannot be serviced. -/
theorem fetchOperand_of_memRead_error {f : Format} {s : State} {i : Instr} {bytes : List Byte} {e : Fault}
    (hf : f.Fits) (hmode : f.BuildsItsVariant) (hi : f.Makes bytes i) (hlen : 2 ≤ i.length)
    (h : memRead s.pc s = .error e) :
    fetchOperand f s = .error
      (raise (.memoryUnserviceable (.read s.pc)) { s with pc := if i.mode = .imm then s.pc + 1 else s.pc }) := by
  cases hi with
  | f1 => 
    have h0 : i.mode.operandBytes = 0 := hf
    simp [Instr.length, h0] at hlen
  | f2 build b =>
    have hb : (build 0).mode = (build b).mode := by
      have hv := (Prod.mk.inj (hmode b.toNat).1).2
      simp only [Format.build, BitVec.ofNat_toNat, BitVec.setWidth_eq] at hv
      exact hv.symm
    simp only [fetchOperand, hb, fetchByteOperand_of_memRead_error h, error_bind]
  | f3 build w =>
    have himm : (build w).mode ≠ .imm := fun hm => by
      have h2 := hf w
      rw [hm] at h2
      cases h2
    simp only [fetchOperand, fetch16, fetch8_of_memRead_error h, error_bind, if_neg himm, (memRead_error h).1]

/-- The second operand byte of an instruction cannot be serviced. -/
theorem fetchOperand_of_second_error {f : Format} {s v : State} {i : Instr} {bytes : List Byte} {l : Byte} {e : Fault}
    (hf : f.Fits) (hi : f.Makes bytes i) (hlen : i.length = 3) (hl : memRead s.pc s = .ok (l, v))
    (h : memRead (s.pc + 1) v = .error e) :
    fetchOperand f s = .error (raise (.memoryUnserviceable (.read (s.pc + 1))) { v with pc := s.pc + 1 }) := by
  cases hi with
  | f1 =>
    have h0 : i.mode.operandBytes = 0 := hf
    simp [Instr.length, h0] at hlen
  | f2 build b => simp [Instr.length, hf b] at hlen
  | f3 build w =>
    have hsecond : fetch8 { v with pc := s.pc + 1 } =
        .error (raise (.memoryUnserviceable (.read (s.pc + 1))) { v with pc := s.pc + 1 }) :=
      fetch8_of_memRead_error (memRead_error_setPC h (s.pc + 1))
    simp only [fetchOperand, fetch16, fetch8_of_memRead_ok hl, ok_bind, hsecond, error_bind]

/-- Settles O8: the first read that fails stops the fetch, with PC as far as the fetches before it have moved it. -/
theorem unserviceableFetchStopsTheStep : Obligations.UnserviceableFetchStopsTheStep := by
  refine fun s hrun => ⟨fun f h => ?opcode, fun i u f hop hlen h => ?first, fun i u v l f hop hlen hl h => ?second⟩
  case opcode =>
    have hfetch : fetch8 s.begin = .error f := fetch8_of_memRead_error (s := s.begin) h
    refine step_eq_fault_of_fetchInstr hrun ?_
    rw [fetchInstr, hfetch, (memRead_error h).1]
    rfl
  all_goals
    obtain ⟨g, hg, hmakes⟩ := exists_makes i
    have hfits := fits_of_lookupOpcode hg
    have hopcode := fetchInstr_of_memRead_ok (s := s.begin) hop hg
  case first =>
    have hvariant := buildsItsVariant_of_mem_opcodeRows (mem_opcodeRows_of_lookupOpcode hg)
    have hoperand := fetchOperand_of_memRead_error hfits hvariant hmakes hlen (memRead_error_setPC h (s.pc + 1))
    rw [step_eq_fault_of_fetchInstr hrun (hopcode.trans hoperand)]
    split <;> simp [raise, HaltCause.report, BitVec.add_assoc]
  case second =>
    have herror : memRead (s.pc + 1 + 1) { v with pc := s.pc + 1 } = .error _ :=
      memRead_error_setPC (pc_add_one_add_one s.pc ▸ h) (s.pc + 1)
    have hoperand := fetchOperand_of_second_error hfits hmakes hlen (memRead_ok_setPC hl (s.pc + 1)) herror
    rw [step_eq_fault_of_fetchInstr hrun (hopcode.trans hoperand)]
    simp [raise, HaltCause.report, BitVec.add_assoc]

/-! ## The halted core (60_exceptions.md R204) -/

theorem step_of_halted {s : State} {c : HaltCause} (h : s.halted = some c) : step s = .fault (c.report s) := by
  simp only [step, h]

/-- Settles O9: a step of a halted core is not a next state, and no other call writes the latch. -/
theorem haltedCoreStaysHalted : Obligations.HaltedCoreStaysHalted := by
  refine fun s c h => ⟨step_of_halted h, fun call t hrun => ?_⟩
  cases call with
  | step => cases (step_of_halted h).symm.trans hrun
  | _ =>
    cases hrun
    exact h

end Sys2Proof.Machine
end

section
/-! The ten shapes of an instruction's meaning as data, the same in every state: which operation it is, over which
operand in memory, and its entry of the cycle table. What a statement says of every instruction is proved once per
shape. -/

namespace Sys2Proof.Machine

/-! ## Operands in memory -/

/-- An addressing mode that gives an effective address, with the operand that the step has fetched. -/
inductive MemMode where
  | zp (b : Byte)
  | zpx (b : Byte)
  | zpy (b : Byte)
  | abs (w : Addr)
  | abx (w : Addr)
  | aby (w : Addr)
  | izx (b : Byte)
  | izy (b : Byte)

/-- The mode's rule (40_step_and_addressing.md R93 to R101). -/
def MemMode.resolve : MemMode → State → Res Resolved
  | .zp b => resolveZp b
  | .zpx b => resolveZpx b
  | .zpy b => resolveZpy b
  | .abs w => resolveAbs w
  | .abx w => resolveAbx w
  | .aby w => resolveAby w
  | .izx b => resolveIzx b
  | .izy b => resolveIzy b

/-- The pointer reads of the mode. -/
def MemMode.reads : MemMode → Nat
  | .izx _ | .izy _ => 2
  | _ => 0

theorem MemMode.resolves (m : MemMode) (s : State) : Resolves m.reads s (m.resolve s) := by
  cases m with
  | zp b => exact resolves_zp b s
  | zpx b => exact resolves_zpx b s
  | zpy b => exact resolves_zpy b s
  | abs w => exact resolves_abs w s
  | abx w => exact resolves_abx w s
  | aby w => exact resolves_aby w s
  | izx b => exact resolves_izx b s
  | izy b => exact resolves_izy b s

/-! ## The shapes -/

/-- Where an instruction that only puts a value into a register takes it from: its operand byte, a general register or
SP. -/
inductive Source where
  | byte (v : Byte)
  | reg (r : Reg)
  | sp

def Source.value (s : State) : Source → Byte
  | .byte v => v
  | .reg r => s.getReg r
  | .sp => s.sp

/-- The shape of a meaning; `n` is the instruction's entry of the cycle table. `put` is an immediate load, or a transfer
but TXS. -/
inductive Shape where
  | load (r : Reg) (m : MemMode) (n : Nat)
  | store (r : Reg) (m : MemMode) (n : Nat)
  | shiftMem (unit : Byte → Byte × Bool) (m : MemMode) (n : Nat)
  | put (r : Reg) (v : Source) (n : Nat)
  | shiftAcc (unit : Byte → Byte × Bool) (n : Nat)
  | txs
  | pha
  | php
  | pla
  | plp

/-- The meaning that a shape stands for, for the opcode byte `op`. -/
def Shape.run (op : Byte) : Shape → State → Answer
  | .load r m n, s => Machine.load r (m.resolve s) (s.baseCycles op n)
  | .store r m n, s => Machine.store (s.getReg r) (m.resolve s) (s.baseCycles op n)
  | .shiftMem unit m n, s => Machine.shiftMem unit (m.resolve s) (s.baseCycles op n)
  | .put r v n, s => transfer r (v.value s) (s.baseCycles op n) s
  | .shiftAcc unit n, s => Machine.shiftAcc unit (s.baseCycles op n) s
  | .txs, s => execTxs s
  | .pha, s => execPha s
  | .php, s => execPhp s
  | .pla, s => execPla s
  | .plp, s => execPlp s

end Sys2Proof.Machine

namespace Sys2Proof

open Machine

/-- The shape of each instruction (41_load.md to 45_shift.md; 70_reset_and_hazards.md R226). -/
def Instr.shape : Instr → Shape
  | .ldaImm v => .put .a (.byte v) 2
  | .ldaZp b => .load .a (.zp b) 3
  | .ldaZpx b => .load .a (.zpx b) 4
  | .ldaAbs w => .load .a (.abs w) 4
  | .ldaAbx w => .load .a (.abx w) 4
  | .ldaAby w => .load .a (.aby w) 4
  | .ldaIzx b => .load .a (.izx b) 6
  | .ldaIzy b => .load .a (.izy b) 5
  | .ldxImm v => .put .x (.byte v) 2
  | .ldxZp b => .load .x (.zp b) 3
  | .ldxZpy b => .load .x (.zpy b) 4
  | .ldxAbs w => .load .x (.abs w) 4
  | .ldxAby w => .load .x (.aby w) 4
  | .ldyImm v => .put .y (.byte v) 2
  | .ldyZp b => .load .y (.zp b) 3
  | .ldyZpx b => .load .y (.zpx b) 4
  | .ldyAbs w => .load .y (.abs w) 4
  | .ldyAbx w => .load .y (.abx w) 4
  | .staZp b => .store .a (.zp b) 3
  | .staZpx b => .store .a (.zpx b) 4
  | .staAbs w => .store .a (.abs w) 4
  | .staAbx w => .store .a (.abx w) 5
  | .staAby w => .store .a (.aby w) 5
  | .staIzx b => .store .a (.izx b) 6
  | .staIzy b => .store .a (.izy b) 6
  | .stxZp b => .store .x (.zp b) 3
  | .stxZpy b => .store .x (.zpy b) 4
  | .stxAbs w => .store .x (.abs w) 4
  | .styZp b => .store .y (.zp b) 3
  | .styZpx b => .store .y (.zpx b) 4
  | .styAbs w => .store .y (.abs w) 4
  | .tax => .put .x (.reg .a) 2
  | .txa => .put .a (.reg .x) 2
  | .tay => .put .y (.reg .a) 2
  | .tya => .put .a (.reg .y) 2
  | .tsx => .put .x .sp 2
  | .txs => .txs
  | .pha => .pha
  | .php => .php
  | .pla => .pla
  | .plp => .plp
  | .aslAcc => .shiftAcc shiftLeft 2
  | .aslZp b => .shiftMem shiftLeft (.zp b) 5
  | .aslZpx b => .shiftMem shiftLeft (.zpx b) 6
  | .aslAbs w => .shiftMem shiftLeft (.abs w) 6
  | .aslAbx w => .shiftMem shiftLeft (.abx w) 7
  | .lsrAcc => .shiftAcc shiftRight 2
  | .lsrZp b => .shiftMem shiftRight (.zp b) 5
  | .lsrZpx b => .shiftMem shiftRight (.zpx b) 6
  | .lsrAbs w => .shiftMem shiftRight (.abs w) 6
  | .lsrAbx w => .shiftMem shiftRight (.abx w) 7

/-- The shape is the meaning, in every state. -/
theorem exec_eq_run (i : Instr) (s : State) : exec i s = i.shape.run i.opcode s := by
  cases i <;> rfl

end Sys2Proof

namespace Sys2Proof.Machine

/-- TXS writes P only with the parameter `TXS_UPDATES_NZ` (90_conflicts.md C2). -/
theorem execTxs_eq (s : State) : execTxs s = .next { s with
    sp := s.x
    p := if s.config.txsUpdatesNZ then setZNByte s.x s.p else s.p
    cycles := some (s.baseCycles 0x9A 2) } := by
  cases h : s.config.txsUpdatesNZ <;> simp [execTxs, h, State.setZN, State.returns]

/-- Settles O47: SP from X, and P by the parameter alone. -/
theorem txsSetsSpAndFlagsOnlyByParameter : Obligations.TxsSetsSpAndFlagsOnlyByParameter := execTxs_eq

/-! ## What an instruction keeps: the accesses it makes -/

/-- `t` is what `n` serviced accesses and any change of registers, flags and count can make of `s`. -/
structure Serviced (n : Nat) (s t : State) : Prop where
  config : t.config = s.config
  halted : t.halted = s.halted
  canonical : Memory.wf s.mem → Memory.wf t.mem
  accesses : ∃ l, l.length = n ∧ t.accesses = s.accesses ++ l

theorem Serviced.refl (s : State) : Serviced 0 s s := ⟨rfl, rfl, id, [], rfl, by simp⟩

/-- Registers, flags and the count are not what `Serviced` speaks of. -/
theorem Serviced.of_eq {n : Nat} {s t u : State} (h : Serviced n s t) (hc : u.config = t.config)
    (hh : u.halted = t.halted) (hm : u.mem = t.mem) (ha : u.accesses = t.accesses) : Serviced n s u := by
  obtain ⟨l, hl, hst⟩ := h.accesses
  exact ⟨hc.trans h.config, hh.trans h.halted, fun hs => hm ▸ h.canonical hs, l, hl, ha.trans hst⟩

theorem Serviced.trans {m n : Nat} {s t u : State} (h : Serviced m s t) (k : Serviced n t u) :
    Serviced (m + n) s u := by
  obtain ⟨l, hl, hst⟩ := h.accesses
  obtain ⟨r, hr, htu⟩ := k.accesses
  exact ⟨k.config.trans h.config, k.halted.trans h.halted, k.canonical ∘ h.canonical, l ++ r, by simp [hl, hr],
    by simp [hst, htu]⟩

theorem AfterReads.serviced {n : Nat} {s t : State} (h : AfterReads n s t) : Serviced n s t := by
  obtain ⟨d, l, hl, rfl⟩ := h
  exact ⟨rfl, rfl, id, l, hl, rfl⟩

theorem AfterFetch.serviced {n : Nat} {s t : State} (h : AfterFetch n s t) : Serviced n s t := by
  obtain ⟨d, l, hl, rfl⟩ := h
  exact ⟨rfl, rfl, id, l, hl, rfl⟩

theorem memRead_serviced {a : Addr} {v : Byte} {s t : State} (h : memRead a s = .ok (v, t)) : Serviced 1 s t :=
  (memRead_afterReads h).serviced

theorem memWrite_serviced {a : Addr} {v : Byte} {s t : State} (h : memWrite a v s = .ok t) : Serviced 1 s t := by
  refine ⟨(memWrite_sameRegisters h).config, (memWrite_sameRegisters h).halted, memWrite_wf h, [.write a v], rfl, ?_⟩
  obtain ⟨d, m, rfl, -, -⟩ := memWrite_ok h
  rfl

theorem push_serviced {v : Byte} {s t : State} (h : push v s = .ok t) : Serviced 1 s t := by
  obtain ⟨u, hw, rfl⟩ := push_ok h
  exact (memWrite_serviced hw).of_eq rfl rfl rfl rfl

theorem pull_serviced {v : Byte} {s t : State} (h : pull s = .ok (v, t)) : Serviced 1 s t := by
  obtain ⟨d, l, hl, rfl⟩ := pull_ok h
  exact ⟨rfl, rfl, id, l, hl, rfl⟩

/-- The accesses that the meaning makes after the fetch. -/
def Shape.accesses : Shape → Nat
  | .load _ m _ | .store _ m _ => m.reads + 1
  | .shiftMem _ m _ => m.reads + 1 + 1
  | .put .. | .shiftAcc .. | .txs => 0
  | .pha | .php | .pla | .plp => 1

theorem Serviced.put {k : Nat} {s t : State} (h : Serviced k s t) (r : Reg) (v : Byte) (n : Nat) :
    Serviced k s (((t.setReg r v).setZN v).returns n) :=
  h.of_eq (by simp) (by simp) (by simp) (by simp)

/-- Every meaning that completes makes the accesses of its shape, and none but them changes memory. -/
theorem exec_serviced {i : Instr} {s t : State} (h : exec i s = .next t) : Serviced i.shape.accesses s t := by
  rw [exec_eq_run] at h
  cases hs : i.shape with rw [hs] at h
  | load r m n =>
    obtain ⟨a, v, u, hm, hr, rfl⟩ := load_eq_next.mp h
    exact (((m.resolves s).ok a hm).1.serviced.trans (memRead_serviced hr)).put ..
  | store r m n =>
    obtain ⟨a, u, hm, hw, rfl⟩ := store_eq_next.mp h
    exact (((m.resolves s).ok a hm).1.serviced.trans (memWrite_serviced hw)).of_eq rfl rfl rfl rfl
  | shiftMem unit m n =>
    obtain ⟨a, v, u, w, hm, hr, hw, rfl⟩ := shiftMem_eq_next.mp h
    exact ((((m.resolves s).ok a hm).1.serviced.trans (memRead_serviced hr)).trans (memWrite_serviced hw)).of_eq
      rfl rfl rfl rfl
  | put r v n =>
    cases h
    exact (Serviced.refl s).put ..
  | shiftAcc unit n =>
    cases h
    exact (Serviced.refl s).of_eq rfl rfl rfl rfl
  | txs =>
    cases (execTxs_eq s).symm.trans h
    exact (Serviced.refl s).of_eq rfl rfl rfl rfl
  | pha =>
    obtain ⟨u, hp, rfl⟩ := execPha_eq_next.mp h
    exact (push_serviced hp).of_eq rfl rfl rfl rfl
  | php =>
    obtain ⟨u, hp, rfl⟩ := execPhp_eq_next.mp h
    exact (push_serviced hp).of_eq rfl rfl rfl rfl
  | pla =>
    obtain ⟨v, u, hp, rfl⟩ := execPla_eq_next.mp h
    exact (pull_serviced hp).of_eq rfl rfl rfl rfl
  | plp =>
    obtain ⟨v, u, hp, rfl⟩ := execPlp_eq_next.mp h
    exact (pull_serviced hp).of_eq rfl rfl rfl rfl

theorem length_add_accesses_le (i : Instr) : i.length + i.shape.accesses ≤ 5 := by
  cases i <;> simp [Instr.length, Instr.mode, Mode.operandBytes, Instr.shape, Shape.accesses, MemMode.reads]

theorem step_serviced {s t : State} (h : step s = .next t) : ∃ n, 1 ≤ n ∧ n ≤ 5 ∧ Serviced n s.begin t := by
  obtain ⟨-, i, u, hf, hx⟩ := step_eq_next.mp h
  exact ⟨_, by unfold Instr.length; omega, length_add_accesses_le i,
    (fetchInstr_afterFetch hf).serviced.trans (exec_serviced hx)⟩

end Sys2Proof.Machine
end

section
/-! The statements about every instruction and every step, each proved once per shape: the invariant and its runs, the
accesses, the count, the faults, the flags. -/

namespace Sys2Proof.Machine

/-! ## The accesses of a step (20_memory.md R44) -/

/-- Everything a completed fetch of an instruction is: the fetch of an opcode byte with a row, and that of its operand
bytes. -/
theorem fetchInstr_eq_ok {s t : State} {i : Instr} (h : fetchInstr s = .ok (i, t)) :
    ∃ op u f, fetch8 s = .ok (op, u) ∧ lookupOpcode op = some f ∧ fetchOperand f u = .ok (i, t) := by
  obtain ⟨⟨op, u⟩, hop, h⟩ := bind_eq_ok.mp h
  dsimp only at h
  split at h
  · cases h
  · next f hf => exact ⟨op, u, f, hop, hf, h⟩

theorem fetch8_accesses {s t : State} {b : Byte} (h : fetch8 s = .ok (b, t)) :
    t.accesses = s.accesses ++ [.read s.pc] := by
  obtain ⟨u, hr, -, rfl⟩ := fetch8_ok h
  obtain ⟨d, rfl, -⟩ := memRead_ok hr
  rfl

/-- The first access of a step is the read of the opcode byte. -/
theorem step_accesses_head {s t : State} (h : step s = .next t) : t.accesses.head? = some (.read s.pc) := by
  obtain ⟨-, i, v, hf, hx⟩ := step_eq_next.mp h
  obtain ⟨op, u, f, hop, hrow, hoperand⟩ := fetchInstr_eq_ok hf
  obtain ⟨l, -, hv⟩ := (fetchOperand_afterFetch (fits_of_lookupOpcode hrow) hoperand).serviced.accesses
  obtain ⟨r, -, ht⟩ := (exec_serviced hx).accesses
  rw [ht, hv, fetch8_accesses hop]
  rfl

/-- Settles O13: the length of the instruction and the accesses of its shape are at most five together. -/
theorem stepMakesOneToFiveAccesses : Obligations.StepMakesOneToFiveAccesses := by
  intro s t h
  obtain ⟨n, hpos, hle, hn⟩ := step_serviced h
  obtain ⟨l, hl, ht⟩ := hn.accesses
  have hlen : t.accesses.length = n := by simp [ht, hl]
  exact ⟨hlen ▸ hpos, hlen ▸ hle, step_accesses_head h⟩

/-! ## The flags (10_state.md R17 to R19) -/

/-- What the instruction `i` can make of the status byte `p`. -/
inductive FlagUpdate (i : Instr) (p : Byte) : Byte → Prop
  | same : FlagUpdate i p p
  | zn (v : Byte) : FlagUpdate i p (setZNByte v p)
  | shift (h : i.mnemonic = .asl ∨ i.mnemonic = .lsr) (c : Bool) (v : Byte) :
    FlagUpdate i p (setZNByte v (setFlag .carry c p))
  | plp (h : i = .plp) (v : Byte) : FlagUpdate i p (v ||| Flag.unused.mask)

/-- A shape without an operand is that of one instruction alone. -/
theorem eq_of_shape_eq {i j : Instr} (hj : j ∈ [Instr.txs, .pha, .php, .pla, .plp]) (h : i.shape = j.shape) :
    i = j := by
  simp only [List.mem_cons, List.not_mem_nil, or_false] at hj
  obtain rfl | rfl | rfl | rfl | rfl := hj <;> cases i <;> cases h <;> rfl

theorem mnemonic_of_shape_shiftMem {i : Instr} {unit : Byte → Byte × Bool} {m : MemMode} {n : Nat}
    (h : i.shape = .shiftMem unit m n) : i.mnemonic = .asl ∨ i.mnemonic = .lsr := by
  cases i <;> cases h <;> simp [Instr.mnemonic]

theorem mnemonic_of_shape_shiftAcc {i : Instr} {unit : Byte → Byte × Bool} {n : Nat} (h : i.shape = .shiftAcc unit n) :
    i.mnemonic = .asl ∨ i.mnemonic = .lsr := by
  cases i <;> cases h <;> simp [Instr.mnemonic]

/-- Every meaning that completes makes one of the four updates of P. -/
theorem exec_flagUpdate {i : Instr} {s t : State} (h : exec i s = .next t) : FlagUpdate i s.p t.p := by
  rw [exec_eq_run] at h
  cases hs : i.shape with rw [hs] at h
  | load r m n =>
    obtain ⟨a, v, u, hm, hr, rfl⟩ := load_eq_next.mp h
    have hp : u.p = s.p := (((m.resolves s).ok a hm).1.trans (memRead_afterReads hr)).sameRegisters.p
    simpa [hp] using FlagUpdate.zn (i := i) (p := s.p) v
  | store r m n =>
    obtain ⟨a, u, hm, hw, rfl⟩ := store_eq_next.mp h
    have hp : u.p = s.p := (memWrite_sameRegisters hw).p.trans ((m.resolves s).ok a hm).1.sameRegisters.p
    simpa [hp] using FlagUpdate.same (i := i) (p := s.p)
  | shiftMem unit m n =>
    obtain ⟨a, v, u, w, hm, hr, hw, rfl⟩ := shiftMem_eq_next.mp h
    have hu : u.p = s.p := (((m.resolves s).ok a hm).1.trans (memRead_afterReads hr)).sameRegisters.p
    have hp : w.p = s.p := (memWrite_sameRegisters hw).p.trans hu
    simpa [hp] using FlagUpdate.shift (p := s.p) (mnemonic_of_shape_shiftMem hs) (unit v).2 (unit v).1
  | put r v n =>
    cases h
    simpa using FlagUpdate.zn (i := i) (p := s.p) (v.value s)
  | shiftAcc unit n =>
    cases h
    exact .shift (mnemonic_of_shape_shiftAcc hs) (unit s.a).2 (unit s.a).1
  | txs =>
    cases (execTxs_eq s).symm.trans h
    show FlagUpdate i s.p (if s.config.txsUpdatesNZ then setZNByte s.x s.p else s.p)
    split
    · exact .zn s.x
    · exact .same
  | pha =>
    obtain ⟨u, hp, rfl⟩ := execPha_eq_next.mp h
    obtain ⟨w, hw, rfl⟩ := push_ok hp
    simpa [(memWrite_sameRegisters hw).p] using FlagUpdate.same (i := i) (p := s.p)
  | php =>
    obtain ⟨u, hp, rfl⟩ := execPhp_eq_next.mp h
    obtain ⟨w, hw, rfl⟩ := push_ok hp
    simpa [(memWrite_sameRegisters hw).p] using FlagUpdate.same (i := i) (p := s.p)
  | pla =>
    obtain ⟨v, u, hp, rfl⟩ := execPla_eq_next.mp h
    simpa [(pull_ok hp).sameRegisters.p] using FlagUpdate.zn (i := i) (p := s.p) v
  | plp =>
    obtain ⟨v, u, hp, rfl⟩ := execPlp_eq_next.mp h
    exact .plp (eq_of_shape_eq (by simp) hs) v

/-- No instruction clears Unused. -/
theorem FlagUpdate.unused {i : Instr} {p q : Byte} (h : FlagUpdate i p q) (hp : p.getLsbD 5 = true) :
    q.getLsbD 5 = true := by
  cases h with
  | same => exact hp
  | zn v => exact unused_setZNByte v p hp
  | shift _ c v => exact unused_setZNByte v _ (unused_setFlag .carry c p hp)
  | plp _ v => exact unused_or_mask v

/-- Settles O20: what is left of P but Z and N, and of Carry but in the shifts, is P before. -/
theorem onlyPlpChangesInterruptDecimalBreakOverflow : Obligations.OnlyPlpChangesInterruptDecimalBreakOverflow := by
  intro i s t h hplp
  have hne : ∀ f ∈ [Flag.interruptDisable, .decimal, .brk, .overflow], f ≠ .zero ∧ f ≠ .negative ∧ f ≠ .carry := by
    decide
  generalize ht : t.p = q
  cases ht ▸ exec_flagUpdate h with
  | same => exact ⟨fun f _ => rfl, fun _ _ => rfl⟩
  | zn v =>
    refine ⟨fun f hf => ?_, fun _ _ => getFlag_setZNByte_other v s.p (by decide) (by decide)⟩
    obtain ⟨hz, hn, -⟩ := hne f hf
    exact getFlag_setZNByte_other v s.p hz hn
  | shift hi c v =>
    refine ⟨fun f hf => ?_, fun hasl hlsr => absurd hi (not_or.mpr ⟨hasl, hlsr⟩)⟩
    obtain ⟨hz, hn, hc⟩ := hne f hf
    rw [getFlag_setZNByte_other _ _ hz hn, getFlag_setFlag_other _ _ hc]
  | plp hi => exact absurd hi hplp

/-! ## The invariant (10_state.md R19; 60_exceptions.md R203) -/

theorem step_config {s t : State} (h : step s = .next t) : t.config = s.config := by
  obtain ⟨n, -, -, hn⟩ := step_serviced h
  exact hn.config

/-- A step that completes leaves the core running. -/
theorem step_running {s t : State} (h : step s = .next t) : t.halted = none := by
  obtain ⟨n, -, -, hn⟩ := step_serviced h
  exact hn.halted.trans (step_eq_next.mp h).1

theorem step_unused {s t : State} (h : step s = .next t) (hs : s.p.getLsbD 5 = true) : t.p.getLsbD 5 = true := by
  obtain ⟨-, i, u, hf, hx⟩ := step_eq_next.mp h
  obtain ⟨d, l, -, rfl⟩ := fetchInstr_afterFetch hf
  exact (exec_flagUpdate hx).unused hs

/-- Settles O22: no flag update clears Unused, and a serviced access keeps the rest. -/
theorem stepKeepsTheInvariant : Obligations.StepKeepsTheInvariant := by
  intro s t hs h
  obtain ⟨n, -, -, hn⟩ := step_serviced h
  exact ⟨⟨step_unused h hs.unused, step_running h, hn.canonical hs.canonical⟩, step_config h⟩

/-- Settles O23: power-on forces Unused to 1, and the default memory lists nothing. -/
theorem resetMeetsTheInvariant : Obligations.ResetMeetsTheInvariant :=
  ⟨by decide, rfl, Memory.wf_nil⟩

/-! ## Runs (70_reset_and_hazards.md R223) -/

/-- A run of one step more that completes: the step completes, and so does the run from its next state. -/
theorem run_succ_eq_next {M : Host.Core} {n : Nat} {s t : M.State} :
    M.run (n + 1) s = .next t ↔ ∃ u, M.step s = .next u ∧ M.run n u = .next t := by
  rw [Host.Core.run]
  cases M.step s <;> simp

theorem run_succ_eq_fault {M : Host.Core} {n : Nat} {s : M.State} {f : M.Fault} :
    M.run (n + 1) s = .fault f ↔ M.step s = .fault f ∨ ∃ u, M.step s = .next u ∧ M.run n u = .fault f := by
  rw [Host.Core.run]
  cases M.step s <;> simp

theorem completes_succ {n : Nat} {s t : State} :
    Completes (n + 1) s t ↔ ∃ u, step s = .next u ∧ Completes n u t :=
  run_succ_eq_next (M := core)

theorem faultsWithin_succ {n : Nat} {s : State} {f : Fault} :
    FaultsWithin (n + 1) s f ↔ step s = .fault f ∨ ∃ u, step s = .next u ∧ FaultsWithin n u f :=
  run_succ_eq_fault (M := core)

/-- Settles O24: by induction on the number of steps. -/
theorem completedRunKeepsTheInvariant : Obligations.CompletedRunKeepsTheInvariant := by
  intro n
  induction n with
  | zero =>
    rintro s t hs ⟨⟩
    exact ⟨hs, rfl, fun m hm => ⟨s, by rw [Nat.le_zero.mp hm]; rfl⟩⟩
  | succ n ih =>
    intro s t hs h
    obtain ⟨u, hstep, hrun⟩ := completes_succ.mp h
    obtain ⟨hu, hconfig⟩ := stepKeepsTheInvariant s u hs hstep
    obtain ⟨ht, hconfig', hsafe⟩ := ih u t hu hrun
    refine ⟨ht, hconfig'.trans hconfig, fun m hm => ?_⟩
    cases m with
    | zero => exact ⟨s, rfl⟩
    | succ m =>
      obtain ⟨v, hv⟩ := hsafe m (Nat.le_of_succ_le_succ hm)
      exact ⟨v, completes_succ.mpr ⟨u, hstep, hv⟩⟩

/-! ## Faults (60_exceptions.md R201 to R204) -/

/-- Whether the meaning begins with a pull, which moves SP before its read (44_stack.md R161). -/
def Shape.pulls : Shape → Bool
  | .pla | .plp => true
  | _ => false

theorem pulls_shape_iff (i : Instr) : i.shape.pulls = true ↔ i = .pla ∨ i = .plp := by
  cases i <;> simp [Instr.shape, Shape.pulls]

theorem push_fault {v : Byte} {s : State} {f : Fault} (h : push v s = .error f) : FailedRead s f := by
  obtain h | ⟨u, -, h⟩ := bind_eq_error.mp h
  · exact memWrite_failed h
  · cases h

/-- Everything a meaning that faults can do: reads of the state it begins in, whose SP a pull has moved, and the access
that fails. -/
theorem exec_fault {i : Instr} {s : State} {f : Fault} (h : exec i s = .fault f) :
    FailedRead (if i.shape.pulls then { s with sp := s.sp + 1 } else s) f := by
  rw [exec_eq_run] at h
  cases hs : i.shape with rw [hs] at h
  | load r m n => exact load_fault (m.resolves s) h
  | store r m n => exact store_fault (m.resolves s) h
  | shiftMem unit m n => exact shiftMem_fault (m.resolves s) h
  | put r v n => cases h
  | shiftAcc unit n => cases h
  | txs => cases (execTxs_eq s).symm.trans h
  | pha | php =>
    obtain h | ⟨u, -, h⟩ := bind_eq_error.mp (finish_eq_fault.mp h)
    · exact push_fault h
    · cases h
  | pla | plp =>
    obtain h | ⟨⟨v, u⟩, -, h⟩ := bind_eq_error.mp (finish_eq_fault.mp h)
    · exact memRead_failed h
    · cases h

theorem exec_ne_refused (i : Instr) (s : State) (r : Refusal) : exec i s ≠ .refused r := by
  intro h
  rw [exec_eq_run] at h
  cases hs : i.shape with rw [hs] at h
  | txs => cases (execTxs_eq s).symm.trans h
  | put r v n => cases h
  | shiftAcc unit n => cases h
  | _ => exact finish_ne_refused h

/-- Settles O18: no meaning refuses. -/
theorem noStepRefuses : Obligations.NoStepRefuses := by
  intro s r h
  unfold step at h
  split at h
  · cases h
  · split at h
    · cases h
    · exact exec_ne_refused _ _ r h

/-- Settles O19: only reads come before the access that fails, and they leave the registers and the cells alone. -/
theorem failedAccessLeavesRegistersAlone : Obligations.FailedAccessLeavesRegistersAlone := by
  intro i s f h
  obtain ⟨n, u, c, hu, rfl, -⟩ := exec_fault h
  refine ⟨c, _, rfl, rfl, ?_⟩
  by_cases hi : i = .pla ∨ i = .plp
  · rw [if_pos ((pulls_shape_iff i).mpr hi)] at hu
    obtain ⟨ha, hx, hy, hsp, hpc, hp, -, hconfig⟩ := hu.sameRegisters
    exact ⟨ha, hx, hy, hp, hpc, hconfig, hu.peek, hsp.trans (if_pos hi).symm⟩
  · rw [if_neg (mt (pulls_shape_iff i).mp hi)] at hu
    obtain ⟨ha, hx, hy, hsp, hpc, hp, -, hconfig⟩ := hu.sameRegisters
    exact ⟨ha, hx, hy, hp, hpc, hconfig, hu.peek, hsp.trans (if_neg hi).symm⟩

/-- Every fault of a fetch is the entry into the halted state with its cause. -/
theorem fetchInstr_error {s : State} {f : Fault} (h : fetchInstr s = .error f) : ∃ c u, f = raise c u := by
  obtain h | ⟨⟨op, u⟩, -, h⟩ := bind_eq_error.mp h
  · exact ⟨_, _, fetch8_error h⟩
  dsimp only at h
  split at h
  · cases h
    exact ⟨_, _, rfl⟩
  · next g _ =>
    cases g with
    | f1 => cases h
    | f2 build =>
      obtain h | ⟨_, -, h⟩ := bind_eq_error.mp h
      · exact ⟨_, _, fetchByteOperand_error h⟩
      · cases h
    | f3 build =>
      obtain h | ⟨_, -, h⟩ := bind_eq_error.mp h
      · obtain h | ⟨_, -, h⟩ := bind_eq_error.mp h
        · exact ⟨_, _, fetch8_error h⟩
        obtain h | ⟨_, -, h⟩ := bind_eq_error.mp h
        · exact ⟨_, _, fetch8_error h⟩
        · cases h
      · cases h

/-- Every fault of a running core is the entry into the halted state with its cause. -/
theorem step_fault {s : State} {f : Fault} (hs : s.halted = none) (h : step s = .fault f) : ∃ c u, f = raise c u := by
  simp only [step, hs] at h
  split at h
  · next hf =>
    cases h
    exact fetchInstr_error hf
  · obtain ⟨-, u, c, -, rfl, -⟩ := exec_fault h
    exact ⟨_, u, rfl⟩

/-- Settles O25: the first step that faults latches its cause, which every later step reports again. -/
theorem faultedRunLeavesACoreHaltedForGood : Obligations.FaultedRunLeavesACoreHaltedForGood := by
  intro n
  induction n with
  | zero =>
    intro s f _ h
    cases h
  | succ n ih =>
    intro s f hs h
    obtain hstep | ⟨u, hstep, hrun⟩ := faultsWithin_succ.mp h
    · obtain ⟨c, u, rfl⟩ := step_fault hs hstep
      exact ⟨c, { u with halted := some c }, rfl, rfl, fun m => faultsWithin_succ.mpr (.inl (step_of_halted rfl))⟩
    · exact ih u f (step_running hstep) hrun

/-! ## Flat RAM (92_eei_decisions.md D14) -/

theorem exec_completes_flat {s : State} (h : s.config.platform.windows = []) (i : Instr) : ∃ t, exec i s = .next t := by
  cases hx : exec i s with
  | next t => exact ⟨t, rfl⟩
  | refused r => exact absurd hx (exec_ne_refused i s r)
  | fault f => exact absurd (exec_fault hx) (not_failedRead_flat (by split <;> exact h) f)

/-- Any two bytes hold the operand of any format. -/
theorem exists_read_two (f : Format) (l h : Byte) : ∃ i rest, f.read [l, h] = .ok (i, rest) := by
  cases f <;> exact ⟨_, _, rfl⟩

/-- Settles O17: on flat RAM every fetch is from plain cells, and no access fails. -/
theorem defaultPlatformServesEveryInstruction : Obligations.DefaultPlatformServesEveryInstruction := by
  intro s hflat
  refine ⟨exec_completes_flat hflat, fun hrun hrow => ?_, fun hrun hrow => ?_⟩
  · obtain ⟨f, hf⟩ := Option.ne_none_iff_exists'.mp hrow
    obtain ⟨i, rest, hread⟩ := exists_read_two f (s.peek (s.pc + 1)) (s.peek (s.pc + 2))
    rw [step_eq_exec_of_decode hrun (decode_cons_eq_ok.mpr ⟨f, hf, hread⟩) fun k _ => readService_flat hflat _]
    exact exec_completes_flat (by exact hflat) i
  · exact ⟨_, step_eq_fault_of_fetchInstr hrun (fetchInstr_illegal (s := s.begin) (readService_flat hflat _) hrow)⟩

/-! ## The count (40_step_and_addressing.md R86; 70_reset_and_hazards.md R226, R227) -/

/-- The entry of the cycle table. -/
def Shape.cycles : Shape → Nat
  | .load _ _ n | .store _ _ n | .shiftMem _ _ n | .put _ _ n | .shiftAcc _ n => n
  | .txs => 2
  | .pha | .php => 3
  | .pla | .plp => 4

/-- The largest page-cross penalty counted, on a machine with or without `PENALTY_ON_WRITES`. -/
def Shape.maxPenalty (onWrites : Bool) : Shape → Nat
  | .load .. => 1
  | .store .. | .shiftMem .. => if onWrites then 1 else 0
  | _ => 0

theorem writePenalty_le {s u : State} (h : u.config = s.config) {k : Nat} (hk : k ≤ 1) :
    u.writePenalty k ≤ if s.config.penaltyOnWrites then 1 else 0 := by
  rw [State.writePenalty, h]
  split
  · exact hk
  · exact le_rfl

/-- The count of a meaning that completes: its entry and at most the penalty of its shape. -/
theorem exec_cycles {i : Instr} {s t : State} (h : exec i s = .next t) :
    ∃ k ≤ i.shape.maxPenalty s.config.penaltyOnWrites,
      t.cycles = some (s.baseCycles i.opcode i.shape.cycles + k) := by
  rw [exec_eq_run] at h
  cases hs : i.shape with rw [hs] at h
  | load r m n =>
    obtain ⟨a, v, u, hm, -, rfl⟩ := load_eq_next.mp h
    exact ⟨a.penalty, ((m.resolves s).ok a hm).2, rfl⟩
  | store r m n =>
    obtain ⟨a, u, hm, hw, rfl⟩ := store_eq_next.mp h
    obtain ⟨hreads, hle⟩ := (m.resolves s).ok a hm
    exact ⟨u.writePenalty a.penalty, writePenalty_le (hreads.serviced.trans (memWrite_serviced hw)).config hle, rfl⟩
  | shiftMem unit m n =>
    obtain ⟨a, v, u, w, hm, hr, hw, rfl⟩ := shiftMem_eq_next.mp h
    obtain ⟨hreads, hle⟩ := (m.resolves s).ok a hm
    have hconfig := ((hreads.serviced.trans (memRead_serviced hr)).trans (memWrite_serviced hw)).config
    exact ⟨w.writePenalty a.penalty, writePenalty_le hconfig hle, rfl⟩
  | put r v n | shiftAcc unit n =>
    cases h
    exact ⟨0, le_rfl, rfl⟩
  | txs =>
    obtain rfl : i = .txs := eq_of_shape_eq (by simp) hs
    cases (execTxs_eq s).symm.trans h
    exact ⟨0, le_rfl, rfl⟩
  | pha =>
    obtain rfl : i = .pha := eq_of_shape_eq (by simp) hs
    obtain ⟨u, -, rfl⟩ := execPha_eq_next.mp h
    exact ⟨0, le_rfl, rfl⟩
  | php =>
    obtain rfl : i = .php := eq_of_shape_eq (by simp) hs
    obtain ⟨u, -, rfl⟩ := execPhp_eq_next.mp h
    exact ⟨0, le_rfl, rfl⟩
  | pla =>
    obtain rfl : i = .pla := eq_of_shape_eq (by simp) hs
    obtain ⟨v, u, -, rfl⟩ := execPla_eq_next.mp h
    exact ⟨0, le_rfl, rfl⟩
  | plp =>
    obtain rfl : i = .plp := eq_of_shape_eq (by simp) hs
    obtain ⟨v, u, -, rfl⟩ := execPlp_eq_next.mp h
    exact ⟨0, le_rfl, rfl⟩

theorem cycles_bounds (i : Instr) :
    2 ≤ i.shape.cycles ∧ i.shape.cycles + i.shape.maxPenalty true ≤ 8 ∧
      i.shape.cycles + i.shape.maxPenalty false ≤ 7 := by
  cases i <;> simp [Instr.shape, Shape.cycles, Shape.maxPenalty]

/-- Settles O14: the table's entry is 2 to 7, and 7 only where the penalty is that of `PENALTY_ON_WRITES`. -/
theorem stepReturnsACountInItsRange : Obligations.StepReturnsACountInItsRange := by
  intro s t hnone h
  obtain ⟨-, i, u, hf, hx⟩ := step_eq_next.mp h
  have hconfig : u.config = s.config := (fetchInstr_afterFetch hf).serviced.config
  obtain ⟨k, hk, hcycles⟩ := exec_cycles hx
  rw [State.baseCycles_of_no_entries (hconfig ▸ hnone)] at hcycles
  rw [hconfig] at hk
  obtain ⟨hlow, hhigh, hhigh'⟩ := cycles_bounds i
  refine ⟨_, hcycles, by omega, ?_, fun hoff => ?_⟩
  · cases hon : s.config.penaltyOnWrites <;> rw [hon] at hk <;> omega
  · rw [hoff] at hk
    omega

/-! ## Noninterference of P (10_state.md section 4) -/

/-- The state with another status byte. -/
def State.withP (s : State) (q : Byte) : State := { s with p := q }

@[simp] theorem State.getReg_withP (s : State) (q : Byte) (r : Reg) : (s.withP q).getReg r = s.getReg r := by
  cases r <;> rfl

@[simp] theorem Source.value_withP (s : State) (q : Byte) (v : Source) : v.value (s.withP q) = v.value s := by
  cases v
  case reg r => exact s.getReg_withP q r
  all_goals rfl

/-- The end of a load or a transfer, from another status byte. -/
theorem put_withP (s : State) (q : Byte) (r : Reg) (v : Byte) (n : Nat) :
    (((s.withP q).setReg r v).setZN v).returns n = (((s.setReg r v).setZN v).returns n).withP (setZNByte v q) := by
  cases r <;> rfl

theorem memRead_withP {a : Addr} {v : Byte} {s t : State} (h : memRead a s = .ok (v, t)) (q : Byte) :
    memRead a (s.withP q) = .ok (v, t.withP q) := by
  rw [memRead_eq_answerRead] at h ⊢
  show answerRead a (s.withP q) (s.readAnswer a) = _
  cases hr : s.readAnswer a <;> rw [hr] at h <;> cases h
  rfl

theorem answerWrite_withP {a : Addr} {v : Byte} {s t : State} {r : Option Nat} (h : answerWrite a v s r = .ok t)
    (q : Byte) : answerWrite a v (s.withP q) r = .ok (t.withP q) := by
  cases r <;> cases h
  rfl

theorem memWrite_withP {a : Addr} {v : Byte} {s t : State} (h : memWrite a v s = .ok t) (q : Byte) :
    memWrite a v (s.withP q) = .ok (t.withP q) := by
  have hsame : (s.withP q).writeService a = s.writeService a := rfl
  cases hw : s.writeService a <;> simp only [memWrite, hsame, hw] at h ⊢
  case listed | device | unserviceable => exact answerWrite_withP h q
  all_goals
    cases h
    rfl

theorem zeroPagePointer_withP {p : Byte} {s t : State} {w : Addr} (h : zeroPagePointer p s = .ok (w, t)) (q : Byte) :
    zeroPagePointer p (s.withP q) = .ok (w, t.withP q) := by
  obtain ⟨⟨l, u⟩, hl, h⟩ := bind_eq_ok.mp h
  obtain ⟨⟨k, v⟩, hk, h⟩ := bind_eq_ok.mp h
  cases h
  simp only [zeroPagePointer, memRead_withP hl, memRead_withP hk, ok_bind, pure_eq_ok]

theorem MemMode.resolve_withP {m : MemMode} {s : State} {a : Resolved} (h : m.resolve s = .ok a) (q : Byte) :
    m.resolve (s.withP q) = .ok { a with state := a.state.withP q } := by
  cases m with
  | izx b =>
    obtain ⟨⟨w, u⟩, hp, h⟩ := bind_eq_ok.mp h
    cases h
    exact bind_eq_ok.mpr ⟨_, zeroPagePointer_withP hp q, rfl⟩
  | izy b =>
    obtain ⟨⟨w, u⟩, hp, h⟩ := bind_eq_ok.mp h
    cases h
    exact bind_eq_ok.mpr ⟨_, zeroPagePointer_withP hp q, rfl⟩
  | _ =>
    cases h
    rfl

theorem push_withP {v : Byte} {s t : State} (h : push v s = .ok t) (q : Byte) :
    push v (s.withP q) = .ok (t.withP q) := by
  obtain ⟨u, hw, h⟩ := bind_eq_ok.mp h
  cases h
  exact bind_eq_ok.mpr ⟨_, memWrite_withP hw q, rfl⟩

theorem pull_withP {v : Byte} {s t : State} (h : pull s = .ok (v, t)) (q : Byte) :
    pull (s.withP q) = .ok (v, t.withP q) :=
  memRead_withP (s := { s with sp := s.sp + 1 }) h q

/-- Every meaning but that of PHP does from another status byte what it does from this one, but for P. -/
theorem exec_withP {i : Instr} {s t : State} (hphp : i ≠ .php) (h : exec i s = .next t) (q : Byte) :
    ∃ q', exec i (s.withP q) = .next (t.withP q') := by
  rw [exec_eq_run] at h ⊢
  cases hs : i.shape with rw [hs] at h
  | load r m n =>
    obtain ⟨a, v, u, hm, hr, rfl⟩ := load_eq_next.mp h
    exact ⟨_, load_eq_next.mpr ⟨_, v, _, m.resolve_withP hm q, memRead_withP hr q, (put_withP ..).symm⟩⟩
  | store r m n =>
    obtain ⟨a, u, hm, hw, rfl⟩ := store_eq_next.mp h
    refine ⟨q, store_eq_next.mpr ⟨_, u.withP q, m.resolve_withP hm q, ?_, rfl⟩⟩
    rw [State.getReg_withP]
    exact memWrite_withP hw q
  | shiftMem unit m n =>
    obtain ⟨a, v, u, w, hm, hr, hw, rfl⟩ := shiftMem_eq_next.mp h
    exact ⟨_, shiftMem_eq_next.mpr
      ⟨_, v, _, _, m.resolve_withP hm q, memRead_withP hr q, memWrite_withP hw q, rfl⟩⟩
  | put r v n =>
    cases h
    refine ⟨setZNByte (v.value s) q, congrArg Host.Outcome.next ?_⟩
    rw [Source.value_withP]
    exact put_withP ..
  | shiftAcc unit n =>
    cases h
    exact ⟨_, rfl⟩
  | txs =>
    cases (execTxs_eq s).symm.trans h
    exact ⟨_, execTxs_eq (s.withP q)⟩
  | pha =>
    obtain ⟨u, hp, rfl⟩ := execPha_eq_next.mp h
    exact ⟨q, execPha_eq_next.mpr ⟨_, push_withP hp q, rfl⟩⟩
  | php => exact absurd (eq_of_shape_eq (by simp) hs) hphp
  | pla =>
    obtain ⟨v, u, hp, rfl⟩ := execPla_eq_next.mp h
    exact ⟨_, execPla_eq_next.mpr ⟨v, _, pull_withP hp q, rfl⟩⟩
  | plp =>
    obtain ⟨v, u, hp, rfl⟩ := execPlp_eq_next.mp h
    exact ⟨_, execPlp_eq_next.mpr ⟨v, _, pull_withP hp q, rfl⟩⟩

/-- Settles O21: the accesses, the modes and the stack engine do not look at P. -/
theorem noInstructionButPhpReadsTheFlags : Obligations.NoInstructionButPhpReadsTheFlags := by
  intro i s t q hphp h
  obtain ⟨q', hq⟩ := exec_withP hphp h q
  exact ⟨_, hq, rfl⟩

end Sys2Proof.Machine
end

section
/-! The statements about plain cells: the whole next state of every load, store, shift, transfer and stack instruction,
and the modes of the resolver that are left. -/

namespace Sys2Proof.Machine

/-! ## The modes on plain cells (40_step_and_addressing.md R90 to R102) -/

/-- The form of an instruction in this mode. -/
def MemMode.form (s : State) (i : Instr) (op : Byte) (n : Nat) : MemMode → MemForm
  | .zp b => zpForm i b op n
  | .zpx b => zpxForm s i b op n
  | .zpy b => zpyForm s i b op n
  | .abs w => absForm i w op n
  | .abx w => abxForm s i w op n
  | .aby w => abyForm s i w op n
  | .izx b => izxForm s i b op n
  | .izy b => izyForm s i b op n

/-- A mode whose pointer cells are plain gives the address of the form, after the reads of those cells. -/
theorem MemMode.resolve_plain {m : MemMode} {s : State} {f : MemForm} (hf : f = m.form s f.instr f.opcode f.cycles)
    (h : ∀ a ∈ f.pointers, s.readService a = .ram) :
    m.resolve s = .ok ⟨f.ea, f.penalty, { s with accesses := s.accesses ++ f.pointers.map .read }⟩ := by
  rw [hf] at h ⊢
  cases m with
  | izx b =>
    refine (resolveIzx_ram (h _ (.head _)) (h _ (.tail _ (.head _)))).trans ?_
    simp [MemMode.form, izxForm, pointerAt, MemForm.penalty]
  | izy b => exact resolveIzy_ram (h _ (.head _)) (h _ (.tail _ (.head _)))
  | zp b | zpx b | zpy b | abs w =>
    simp [MemMode.form, zpForm, zpxForm, zpyForm, absForm, MemForm.penalty, MemMode.resolve, resolveZp, resolveZpx,
      resolveZpy, resolveAbs]
  | abx w | aby w =>
    simp only [MemMode.form, abxForm, abyForm, List.map_nil, List.append_nil]
    rfl

/-- Settles O38: the pointer lies in page 0, and Y is added to it as an index. -/
theorem indirectIndexedAddsYToAPageZeroPointer : Obligations.IndirectIndexedAddsYToAPageZeroPointer := by
  intro s h b hl hh
  refine resolveFetch8_ram (f := resolveIzy) h ?_
  refine (resolveIzy_ram (by exact hl) (by exact hh)).trans ?_
  rw [indexed_eq, List.append_assoc]
  rfl

theorem sext16_eq_ofInt (b : Byte) : sext16 b = BitVec.ofInt 16 b.toInt := by
  revert b
  decide

/-- Settles O39: the operand sign-extended is the operand as an integer. -/
theorem relativeModeAddsASignedOffset : Obligations.RelativeModeAddsASignedOffset := by
  intro s h target
  have htarget : s.pc + 1 + sext16 (s.peek s.pc) = target := by
    show _ = BitVec.ofInt 16 ((s.pc + 1).toNat + (s.peek s.pc).toInt)
    rw [sext16_eq_ofInt, BitVec.ofInt_add, BitVec.ofInt_natCast, BitVec.ofNat_toNat, BitVec.setWidth_eq]
  rw [← htarget]
  exact resolveFetch8_ram (f := resolveRel) h rfl

/-- Settles O40: the three rules, which make no access. -/
theorem operandlessModesReadNothing : Obligations.OperandlessModesReadNothing :=
  fun _ => ⟨rfl, rfl, rfl⟩

/-! ## Loads (41_load.md) -/

/-- The loads of the list are loads into its registers, in the modes of their forms. -/
theorem exists_mode_of_mem_loadForms {s : State} {b : Byte} {w : Addr} {rf : Reg × MemForm}
    (h : rf ∈ loadForms s b w) :
    ∃ m : MemMode, rf.2 = m.form s rf.2.instr rf.2.opcode rf.2.cycles ∧
      exec rf.2.instr s = load rf.1 (m.resolve s) (s.baseCycles rf.2.opcode rf.2.cycles) := by
  revert rf
  simp only [loadForms, List.forall_mem_cons]
  exact ⟨⟨.zp b, rfl, rfl⟩, ⟨.zpx b, rfl, rfl⟩, ⟨.abs w, rfl, rfl⟩, ⟨.abx w, rfl, rfl⟩, ⟨.aby w, rfl, rfl⟩,
    ⟨.izx b, rfl, rfl⟩, ⟨.izy b, rfl, rfl⟩, ⟨.zp b, rfl, rfl⟩, ⟨.zpy b, rfl, rfl⟩, ⟨.abs w, rfl, rfl⟩,
    ⟨.aby w, rfl, rfl⟩, ⟨.zp b, rfl, rfl⟩, ⟨.zpx b, rfl, rfl⟩, ⟨.abs w, rfl, rfl⟩, ⟨.abx w, rfl, rfl⟩,
    List.forall_mem_nil _⟩

/-- A value put into a register with its flags and the count. -/
theorem put_eq (s : State) (r : Reg) (v : Byte) (n : Nat) :
    ((s.setReg r v).setZN v).returns n = { s.setReg r v with p := setZNByte v s.p, cycles := some n } := by
  cases r <;> rfl

/-- Settles O42: `load` after the pointer reads of the form's mode, or the one update of an immediate load. -/
theorem loadsFromPlainCells : Obligations.LoadsFromPlainCells := by
  refine fun s b w => ⟨fun rf hrf hplain => ?_, fun r hr => ?_⟩
  · obtain ⟨m, hform, hexec⟩ := exists_mode_of_mem_loadForms hrf
    have hpointers (a) (ha : a ∈ rf.2.pointers) := hplain a (List.mem_append_left _ ha)
    rw [hexec, load_plain rf.1 (MemMode.resolve_plain hform hpointers) (hplain _ (by simp)), List.map_append]
    rfl
  · rw [exec_eq_loadImm_of_mem hr, loadImm, put_eq]

/-! ## Stores (42_store.md) -/

theorem exists_mode_of_mem_storeForms {s : State} {b : Byte} {w : Addr} {vf : Byte × MemForm}
    (h : vf ∈ storeForms s b w) :
    ∃ m : MemMode, vf.2 = m.form s vf.2.instr vf.2.opcode vf.2.cycles ∧
      exec vf.2.instr s = store vf.1 (m.resolve s) (s.baseCycles vf.2.opcode vf.2.cycles) := by
  revert vf
  simp only [storeForms, List.forall_mem_cons]
  exact ⟨⟨.zp b, rfl, rfl⟩, ⟨.zpx b, rfl, rfl⟩, ⟨.abs w, rfl, rfl⟩, ⟨.abx w, rfl, rfl⟩, ⟨.aby w, rfl, rfl⟩,
    ⟨.izx b, rfl, rfl⟩, ⟨.izy b, rfl, rfl⟩, ⟨.zp b, rfl, rfl⟩, ⟨.zpy b, rfl, rfl⟩, ⟨.abs w, rfl, rfl⟩,
    ⟨.zp b, rfl, rfl⟩, ⟨.zpx b, rfl, rfl⟩, ⟨.abs w, rfl, rfl⟩, List.forall_mem_nil _⟩

/-- Settles O44: `store` after the pointer reads of the form's mode. -/
theorem storesToPlainCells : Obligations.StoresToPlainCells := by
  intro s b w vf hvf hpointers hwrite
  obtain ⟨m, hform, hexec⟩ := exists_mode_of_mem_storeForms hvf
  rw [hexec, store_plain vf.1 (MemMode.resolve_plain hform hpointers) hwrite]

/-! ## Shifts (45_shift.md) -/

/-- No mode of a shift reads a pointer. -/
theorem exists_mode_of_mem_shiftForms {s : State} {b : Byte} {w : Addr} {uf : (Byte → Byte × Bool) × MemForm}
    (h : uf ∈ shiftForms s b w) :
    ∃ m : MemMode, uf.2 = m.form s uf.2.instr uf.2.opcode uf.2.cycles ∧ uf.2.pointers = [] ∧
      exec uf.2.instr s = shiftMem uf.1 (m.resolve s) (s.baseCycles uf.2.opcode uf.2.cycles) := by
  revert uf
  simp only [shiftForms, List.forall_mem_cons]
  exact ⟨⟨.zp b, rfl, rfl, rfl⟩, ⟨.zpx b, rfl, rfl, rfl⟩, ⟨.abs w, rfl, rfl, rfl⟩, ⟨.abx w, rfl, rfl, rfl⟩,
    ⟨.zp b, rfl, rfl, rfl⟩, ⟨.zpx b, rfl, rfl, rfl⟩, ⟨.abs w, rfl, rfl, rfl⟩, ⟨.abx w, rfl, rfl, rfl⟩,
    List.forall_mem_nil _⟩

/-- Settles O57: `shiftMem` at the address of the form, which no read precedes. -/
theorem shiftsOfPlainCells : Obligations.ShiftsOfPlainCells := by
  intro s b w uf huf hread hwrite
  obtain ⟨m, hform, hnone, hexec⟩ := exists_mode_of_mem_shiftForms huf
  have hresolve : m.resolve s = .ok ⟨uf.2.ea, uf.2.penalty, s⟩ := by
    simpa [hnone] using MemMode.resolve_plain hform (by simp [hnone])
  rw [hexec, shiftMem_plain uf.1 hresolve hread hwrite]

/-- Settles O56: `shiftAcc` with either unit. -/
theorem accumulatorShifts : Obligations.AccumulatorShifts :=
  fun _ => ⟨rfl, rfl⟩

/-! ## Transfers (43_transfer.md) -/

/-- Settles O45: a transfer is the one update of a register with its flags. -/
theorem transfersCopyAndSetFlags : Obligations.TransfersCopyAndSetFlags := by
  intro s r hr
  rw [exec_eq_transfer_of_mem hr, transfer, put_eq]

/-! ## The stack instructions (44_stack.md) -/

/-- Settles O51: a push to a plain cell, and the count. -/
theorem pushesStoreTheRegister : Obligations.PushesStoreTheRegister :=
  fun _ h => ⟨execPha_eq_next.mpr ⟨_, push_ram h, rfl⟩, execPhp_eq_next.mpr ⟨_, push_ram h, rfl⟩⟩

/-- Settles O52: a pull from a plain cell, and the update of A or of P. -/
theorem pullsLoadTheRegister : Obligations.PullsLoadTheRegister :=
  fun _ h => ⟨execPla_eq_next.mpr ⟨_, _, pull_ram h, rfl⟩, execPlp_eq_next.mpr ⟨_, _, pull_ram h, rfl⟩⟩

/-- Settles O54: the pull reads the cell that the push has written. -/
theorem pushThenPullRestoresTheRegister : Obligations.PushThenPullRestoresTheRegister := by
  intro s hs hread hwrite
  obtain ⟨hpha, hphp⟩ := pushesStoreTheRegister s hwrite
  have hback : s.sp - 1 + 1 = s.sp := BitVec.sub_add_cancel ..
  have hplain : s.readService (stackAddr (s.sp - 1 + 1)) = .ram := by rw [hback, hread]
  have hpeek (v : Byte) : (s.poke (stackAddr s.sp) v).peek (stackAddr (s.sp - 1 + 1)) = v := by
    rw [hback, peek_poke_same s _ v hs.canonical]
  refine ⟨⟨_, _, hpha, (pullsLoadTheRegister _ (by exact hplain)).1, hpeek s.a, hback,
      congrArg (setZNByte · s.p) (hpeek s.a)⟩,
    fun hmask => ⟨_, _, hphp, (pullsLoadTheRegister _ (by exact hplain)).2, ?_, hback⟩⟩
  have hp : s.p ||| 0x20 = s.p := status_eq s hs.unused
  have hzero : s.p ||| 0 = s.p := BitVec.or_zero
  refine (congrArg (· ||| 0x20) (hpeek _)).trans ?_
  rw [hmask, hp, hzero, hp]

/-! ## The count of every instruction (70_reset_and_hazards.md R226, R227) -/

/-- The rows without an operand in memory: their opcode byte and entry, and no page-cross penalty. -/
theorem cost_of_mem {s : State} {v : Byte} {r : Instr × Byte × Nat}
    (h : r ∈ (immediateLoads v).map (fun r => r.2) ++ (transfers s).map (fun r => r.2.2) ++ operandless) :
    r.1.opcode = r.2.1 ∧ r.1.shape.cycles = r.2.2 ∧ ∀ w, r.1.shape.maxPenalty w = 0 := by
  revert r
  simp only [List.forall_mem_append, immediateLoads, transfers, operandless, List.map_cons, List.map_nil,
    List.forall_mem_cons, List.not_mem_nil, IsEmpty.forall_iff, implies_true]
  simp only [Instr.opcode, Instr.shape, Shape.cycles, Shape.maxPenalty, implies_true, and_self]

/-- LDA absolute,X over a page boundary: one cycle more than the table's entry. -/
theorem exec_ldaAbx_cross {s : State} (hflat : s.config.platform.windows = []) (hx : s.x = 1) :
    ∃ t, exec (.ldaAbx 0x00FF) s = .next t ∧ t.a = s.peek 0x0100 ∧ t.cycles = some (s.baseCycles 0xBD 4 + 1) := by
  have hmem : (.a, abxForm s (.ldaAbx 0x00FF) 0x00FF 0xBD 4) ∈ loadForms s 0 0x00FF := by simp [loadForms]
  refine ⟨_, (loadsFromPlainCells s 0 0x00FF).1 _ hmem fun a _ => readService_flat hflat a, ?_, ?_⟩
  all_goals
    simp only [abxForm, MemForm.penalty, hx]
    rfl

/-- Settles O16: the counts of the states above, and of the shapes without a page-cross penalty. -/
theorem cycleCountAddsThePagePenalty : Obligations.CycleCountAddsThePagePenalty := by
  refine ⟨fun s t b w hflat => ⟨fun rf hrf h => ?load, fun vf hvf h => ?store, fun uf huf h => ?shift⟩, 
    fun s t v r hr h => ?others, fun s v hnone => ?immediate, fun s hnone hflat hx => ?cross, fun s t h n => ?outputs⟩
  case load =>
    cases ((loadsFromPlainCells s b w).1 rf hrf fun a _ => readService_flat hflat a).symm.trans h
    rfl
  case store =>
    have hexec := storesToPlainCells s b w vf hvf (fun a _ => readService_flat hflat a) (writeService_flat hflat _)
    cases hexec.symm.trans h
    rfl
  case shift =>
    cases (shiftsOfPlainCells s b w uf huf (readService_flat hflat _) (writeService_flat hflat _)).symm.trans h
    rfl
  case others =>
    obtain ⟨hop, hcycles, hnone⟩ := cost_of_mem hr
    obtain ⟨k, hk, ht⟩ := exec_cycles h
    rw [hnone] at hk
    rw [ht, hop, hcycles, Nat.le_zero.mp hk, Nat.add_zero]
  case immediate => exact ⟨_, rfl, congrArg some (State.baseCycles_of_no_entries hnone ..)⟩
  case cross =>
    obtain ⟨t, hexec, ha, hcycles⟩ := exec_ldaAbx_cross hflat hx
    rw [State.baseCycles_of_no_entries hnone] at hcycles
    exact ⟨t, hexec, ha, hcycles⟩
  case outputs => exact stepIgnoresWhatEarlierStepsReturned t n t.accesses (step_running h)

end Sys2Proof.Machine
end

section
/-! The statements of 20_memory.md section 5: what one step writes is what the next step fetches. -/

namespace Sys2Proof.Machine

/-- The forms do not look at PC or at the outputs of the step. -/
theorem writingForms_advanced (s : State) (n : Nat) (b : Byte) (w : Addr) :
    writingForms (s.begin.advanced n) b w = writingForms s b w := by
  simp only [writingForms, storeForms, shiftForms, zpForm, zpxForm, zpyForm, absForm, abxForm, abyForm, izxForm,
    izyForm, pointerAt, State.peek, State.advanced, State.begin]

/-- On flat RAM each writing instruction completes and sets the one cell of its form to the byte of its form. -/
theorem exec_writingForm {s : State} {b : Byte} {w : Addr} {r : Instr × Addr × Byte}
    (hflat : s.config.platform.windows = []) (h : r ∈ writingForms s b w) : ∃ t, exec r.1 s = .next t ∧ t.mem = (s.poke r.2.1 r.2.2).mem := by
  have hread := readService_flat hflat
  have hwrite := writeService_flat hflat
  simp only [writingForms, List.mem_append, List.mem_map, List.mem_cons, List.not_mem_nil, or_false] at h
  obtain (⟨vf, hvf, rfl⟩ | ⟨uf, huf, rfl⟩) | rfl | rfl := h
  · exact ⟨_, storesToPlainCells s b w vf hvf (fun a _ => hread a) (hwrite _), rfl⟩
  · exact ⟨_, shiftsOfPlainCells s b w uf huf (hread _) (hwrite _), rfl⟩
  · exact ⟨_, (pushesStoreTheRegister s (hwrite _)).1, rfl⟩
  · exact ⟨_, (pushesStoreTheRegister s (hwrite _)).2, rfl⟩

/-- The cells of a canonical memory after one of them is set. -/
theorem peek_of_mem_eq_poke {s t : State} {c : Addr} {v : Byte} (hwf : Memory.wf s.mem) (h : t.mem = (s.poke c v).mem)
    (a : Addr) : t.peek a = if a = c then v else s.peek a := by
  have hpeek : t.peek a = (s.poke c v).peek a := congrArg (Memory.read · a.toNat) h
  rw [hpeek]
  split
  · next ha => rw [ha, peek_poke_same s c v hwf]
  · next ha => rw [peek_poke_other s v ha]

/-- Settles O60: each of the two steps runs what its bytes decode to, and the first has set the one cell of its form. -/
theorem writtenBytesAreFetchedByTheNextStep : Obligations.WrittenBytesAreFetchedByTheNextStep := by
  intro s b w rest r hr hrun hflat hwf hdecode q cell
  have hstep := step_eq_exec_of_decode hrun hdecode fun k _ => readService_flat hflat _
  rw [← writingForms_advanced s r.1.length] at hr
  obtain ⟨t, hexec, hmem⟩ := exec_writingForm (by exact hflat) hr
  have ht : step s = .next t := hstep.trans hexec
  have hpc : t.pc = q := exec_pc hexec
  have hcell : ∀ a, t.peek a = cell a := peek_of_mem_eq_poke hwf hmem
  refine ⟨t, ht, hpc, hcell, fun j rest' hnext => ?_⟩
  simp only [← hcell, ← hpc] at hnext ⊢
  exact step_eq_exec_of_decode (step_running ht) hnext fun k _ => readService_flat (by rw [step_config ht, hflat]) _

/-- The encoding of an instruction of length 1 is its opcode byte. -/
theorem encode_of_length_eq_one {i : Instr} (h : i.length = 1) : encode i = [i.opcode] := by
  have hlen := (length_encode i).trans h
  rw [encode] at hlen ⊢
  rw [List.length_eq_zero_iff.mp (Nat.succ.inj hlen)]

/-- Settles O33: the case of O60 in which the store is STA absolute over the opcode byte that follows it. -/
theorem storedBytesAreTheNextInstruction : Obligations.StoredBytesAreTheNextInstruction := by
  intro s i rest hrun hflat hwf hdecode hlen ha
  have hform : (.staAbs (s.pc + 3), s.pc + 3, s.a) ∈ writingForms s 0 (s.pc + 3) := by
    simp [writingForms, storeForms, absForm]
  obtain ⟨t, ht, hpc, hcell, -⟩ :=
    writtenBytesAreFetchedByTheNextStep s 0 (s.pc + 3) rest _ hform hrun hflat hwf hdecode
  change t.pc = s.pc + 3 at hpc
  have hop : t.peek t.pc = i.opcode := by rw [hcell, hpc, ← ha]; exact if_pos rfl
  have hnext : decode [t.peek t.pc, t.peek (t.pc + 1), t.peek (t.pc + 2)] =
      .ok (i, [t.peek (t.pc + 1), t.peek (t.pc + 2)]) := by
    rw [hop, ← decode_encode_append i, encode_of_length_eq_one hlen]
    rfl
  refine ⟨t, ht, hpc, ?_⟩
  rw [step_eq_exec_of_decode (step_running ht) hnext fun k _ => readService_flat (by rw [step_config ht, hflat]) _]
  simp [State.advanced, State.begin, hlen, hpc, BitVec.add_assoc]

end Sys2Proof.Machine
end

section
/-! The statements about any platform: what the memory interface answers, and what the stores, the shifts and the stack
instructions leave alone. -/

namespace Sys2Proof.Machine

/-! ## Frames (42_store.md, 44_stack.md, 45_shift.md) -/

theorem sameRegisters_trans {s t u : State} (h : SameRegisters s t) (k : SameRegisters t u) : SameRegisters s u :=
  ⟨k.a.trans h.a, k.x.trans h.x, k.y.trans h.y, k.sp.trans h.sp, k.pc.trans h.pc, k.p.trans h.p,
    k.halted.trans h.halted, k.config.trans h.config⟩

theorem sameRegisters_returns {s t : State} (h : SameRegisters s t) (n : Nat) : SameRegisters s (t.returns n) :=
  ⟨h.a, h.x, h.y, h.sp, h.pc, h.p, h.halted, h.config⟩

/-- A write after reads changes no register, and no cell but the one its address stands for. -/
theorem memWrite_frame {n : Nat} {s u w : State} {a : Addr} {v : Byte} (hu : AfterReads n s u)
    (hw : memWrite a v u = .ok w) : SameRegisters s w ∧ ∀ c, c ≠ s.writeCell a → w.peek c = s.peek c := by
  refine ⟨sameRegisters_trans hu.sameRegisters (memWrite_sameRegisters hw), fun c hc => ?_⟩
  have hcell : u.writeCell a = s.writeCell a := writeCell_congr hu.sameRegisters.config a
  rw [memWrite_peek_other hw (hcell ▸ hc), hu.peek]

/-- The stores of the list store its values, in modes of the resolver. -/
theorem exists_mode_of_mem_storesAny {s : State} {b : Byte} {w : Addr} {vf : Byte × AnyForm}
    (h : vf ∈ storesAny s b w) :
    ∃ m : MemMode, vf.2.resolve = m.resolve s ∧
      exec vf.2.instr s = store vf.1 vf.2.resolve (s.baseCycles vf.2.opcode vf.2.cycles) := by
  revert vf
  simp only [storesAny, List.forall_mem_cons]
  exact ⟨⟨.zp b, rfl, rfl⟩, ⟨.zpx b, rfl, rfl⟩, ⟨.abs w, rfl, rfl⟩, ⟨.abx w, rfl, rfl⟩, ⟨.aby w, rfl, rfl⟩,
    ⟨.izx b, rfl, rfl⟩, ⟨.izy b, rfl, rfl⟩, ⟨.zp b, rfl, rfl⟩, ⟨.zpy b, rfl, rfl⟩, ⟨.abs w, rfl, rfl⟩,
    ⟨.zp b, rfl, rfl⟩, ⟨.zpx b, rfl, rfl⟩, ⟨.abs w, rfl, rfl⟩, List.forall_mem_nil _⟩

theorem exists_mode_of_mem_shiftsAny {s : State} {b : Byte} {w : Addr} {uf : (Byte → Byte × Bool) × AnyForm}
    (h : uf ∈ shiftsAny s b w) : ∃ m : MemMode, uf.2.resolve = m.resolve s := by
  revert uf
  simp only [shiftsAny, List.forall_mem_cons]
  exact ⟨⟨.zp b, rfl⟩, ⟨.zpx b, rfl⟩, ⟨.abs w, rfl⟩, ⟨.abx w, rfl⟩, ⟨.zp b, rfl⟩, ⟨.zpx b, rfl⟩, ⟨.abs w, rfl⟩,
    ⟨.abx w, rfl⟩, List.forall_mem_nil _⟩

/-- Settles O43: a store is its mode, then one write, then the count. -/
theorem storesFollowTheCommonRule : Obligations.StoresFollowTheCommonRule := by
  intro s b w vf hvf
  obtain ⟨mode, hmode, hexec⟩ := exists_mode_of_mem_storesAny hvf
  have hresolves := hmode ▸ mode.resolves s
  rw [hexec]
  refine ⟨fun m u hm hw => ?_, fun f hf => ?_, fun m f hm hf => ?_, fun t h => ?_⟩
  · have hreads := (hresolves.ok m hm).1
    have hpenalty : u.writePenalty m.penalty = if s.config.penaltyOnWrites then m.penalty else 0 := by
      rw [State.writePenalty, (hreads.serviced.trans (memWrite_serviced hw)).config]
    rw [store_eq_next.mpr ⟨m, u, hm, hw, rfl⟩, hpenalty]
    rfl
  · exact finish_eq_fault.mpr (bind_eq_error.mpr (.inl hf))
  · exact finish_eq_fault.mpr (bind_eq_error.mpr (.inr ⟨m, hm, bind_eq_error.mpr (.inl hf)⟩))
  · obtain ⟨m, u, hm, hw, rfl⟩ := store_eq_next.mp h
    obtain ⟨hregs, hcells⟩ := memWrite_frame (hresolves.ok m hm).1 hw
    refine ⟨sameRegisters_returns hregs _, fun m' hm' a hne => ?_⟩
    cases hm.symm.trans hm'
    exact hcells a hne

/-- The flags that a shift leaves alone. -/
theorem getFlag_setShiftFlags {s : State} {rc : Byte × Bool} {f : Flag}
    (hf : f ∈ [Flag.interruptDisable, .decimal, .brk, .unused, .overflow]) :
    getFlag f (s.setShiftFlags rc).p = getFlag f s.p := by
  have hne : ∀ f ∈ [Flag.interruptDisable, .decimal, .brk, .unused, .overflow],
      f ≠ .zero ∧ f ≠ .negative ∧ f ≠ .carry := by decide
  obtain ⟨hz, hn, hc⟩ := hne f hf
  rw [State.setShiftFlags_p, getFlag_setZNByte_other _ _ hz hn, getFlag_setFlag_other _ _ hc]

/-- An accumulator shift changes A, C, Z, N and the count. -/
theorem shiftAcc_frame {unit : Byte → Byte × Bool} {n : Nat} {s t : State} (h : shiftAcc unit n s = .next t) :
    SameRegisters { s with a := t.a, p := t.p } t ∧
      (∀ f ∈ [Flag.interruptDisable, .decimal, .brk, .unused, .overflow], getFlag f t.p = getFlag f s.p) ∧
      ∀ a, t.peek a = s.peek a := by
  cases h
  exact ⟨⟨rfl, rfl, rfl, rfl, rfl, rfl, rfl, rfl⟩, fun f hf => getFlag_setShiftFlags hf, fun _ => rfl⟩

/-- Settles O58: a memory shift is its mode, one read and one write at one address, then C, Z and N. -/
theorem shiftsLeaveTheRestAlone : Obligations.ShiftsLeaveTheRestAlone := by
  refine fun s t b w => ⟨fun uf huf h => ?_, fun i hi h => ?_⟩
  · obtain ⟨mode, hmode⟩ := exists_mode_of_mem_shiftsAny huf
    obtain ⟨m, v, u, z, hm, hr, hw, rfl⟩ := shiftMem_eq_next.mp ((exec_eq_shiftMem_of_mem huf).symm.trans h)
    have hreads := ((hmode ▸ mode.resolves s).ok m hm).1.trans (memRead_afterReads hr)
    obtain ⟨⟨ha, hx, hy, hsp, hpc, hp, hhalted, hconfig⟩, hcells⟩ := memWrite_frame hreads hw
    refine ⟨⟨ha, hx, hy, hsp, hpc, rfl, hhalted, hconfig⟩, fun f hf => ?_, fun m' hm' a hne => ?_⟩
    · exact hp ▸ getFlag_setShiftFlags hf
    · cases hm.symm.trans hm'
      exact hcells a hne
  · simp only [List.mem_cons, List.not_mem_nil, or_false] at hi
    obtain rfl | rfl := hi
    · exact shiftAcc_frame (unit := shiftLeft) h
    · exact shiftAcc_frame (unit := shiftRight) h

/-- A push changes SP and the one cell that its address stands for. -/
theorem push_frame {v : Byte} {s u t : State} (h : push v s = .ok u) (n : Nat) (ht : t = u.returns n) :
    SameRegisters { s with sp := s.sp - 1 } t ∧ ∀ a, a ≠ s.writeCell (stackAddr s.sp) → t.peek a = s.peek a := by
  obtain ⟨w, hw, rfl⟩ := push_ok h
  obtain ⟨ha, hx, hy, -, hpc, hp, hhalted, hconfig⟩ := memWrite_sameRegisters hw
  subst ht
  exact ⟨⟨ha, hx, hy, rfl, hpc, hp, hhalted, hconfig⟩, fun a hne => (memWrite_peek_other hw hne :)⟩

/-- Settles O53: a push is one write, a pull is one read. -/
theorem stackInstructionsLeaveTheRestAlone : Obligations.StackInstructionsLeaveTheRestAlone := by
  refine fun s t => ⟨fun h => ?_, fun h => ?_, fun h => ?_⟩
  · obtain h | h := h
    · obtain ⟨u, hp, ht⟩ := execPha_eq_next.mp h
      exact push_frame hp _ ht
    · obtain ⟨u, hp, ht⟩ := execPhp_eq_next.mp h
      exact push_frame hp _ ht
  · obtain ⟨v, u, hp, rfl⟩ := execPla_eq_next.mp h
    exact sameButRegAndZN_setReg (pull_ok hp) .a v _
  · obtain ⟨v, u, hp, rfl⟩ := execPlp_eq_next.mp h
    obtain ⟨ha, hx, hy, hsp, hpc, -, hhalted, hconfig⟩ := (pull_ok hp).sameRegisters
    exact ⟨⟨ha, hx, hy, hsp, hpc, rfl, hhalted, hconfig⟩, (pull_ok hp).peek⟩

/-! ## The memory interface (20_memory.md R41) -/

theorem mem_allAddrs (a : Addr) : a ∈ allAddrs :=
  List.mem_map.mpr ⟨a.toFin, List.mem_finRange _, rfl⟩

theorem mem_allBytes (v : Byte) : v ∈ allBytes :=
  List.mem_map.mpr ⟨v.toFin, List.mem_finRange _, rfl⟩

section
variable {k : Nat} (read : Fin k → Addr → Option (Byte × Fin k)) (write : Fin k → Addr → Byte → Option (Fin k))
  (m : Fin k) (a : Addr) (v : Byte)

/-- The read table lists each state and address once. -/
theorem ofFunctions_read :
    (Platform.ofFunctions k read write).read m.val a = (read m a).map fun r => (r.1, r.2.val) := by
  have h : (Platform.ofFunctions k read write).reads.lookup (m.val, a) =
      some ((read m a).map fun r => (r.1, r.2.val)) := by
    apply lookup_eq_some
    · exact List.mem_flatMap.mpr ⟨m, List.mem_finRange m, List.mem_map.mpr ⟨a, mem_allAddrs a, rfl⟩⟩
    · intro w hw
      obtain ⟨n, -, hw⟩ := List.mem_flatMap.mp hw
      obtain ⟨c, -, hw⟩ := List.mem_map.mp hw
      simp only [Prod.mk.injEq] at hw
      obtain ⟨⟨hn, rfl⟩, rfl⟩ := hw
      rw [Fin.ext hn]
  rw [Platform.read, h, Option.join_some]

/-- The write table lists each state, address and byte once. -/
theorem ofFunctions_write :
    (Platform.ofFunctions k read write).write m.val a v = (write m a v).map Fin.val := by
  have h : (Platform.ofFunctions k read write).writes.lookup (m.val, a, v) = some ((write m a v).map Fin.val) := by
    apply lookup_eq_some
    · exact List.mem_flatMap.mpr ⟨m, List.mem_finRange m, List.mem_flatMap.mpr ⟨a, mem_allAddrs a,
        List.mem_map.mpr ⟨v, mem_allBytes v, rfl⟩⟩⟩
    · intro w hw
      obtain ⟨n, -, hw⟩ := List.mem_flatMap.mp hw
      obtain ⟨c, -, hw⟩ := List.mem_flatMap.mp hw
      obtain ⟨x, -, hw⟩ := List.mem_map.mp hw
      simp only [Prod.mk.injEq] at hw
      obtain ⟨⟨hn, rfl, rfl⟩, rfl⟩ := hw
      rw [Fin.ext hn]
  rw [Platform.write, h, Option.join_some]

/-- The one window of such a platform holds every address. -/
theorem regionAt_ofFunctions :
    regionAt (Platform.ofFunctions k read write).windows a = some ⟨0, 65536, .listed, .listed⟩ := by
  simp [regionAt, Platform.ofFunctions, a.isLt]

end

/-- Settles O59: by the window that holds the address, whose answer `memRead` and `memWrite` give. -/
theorem memoryInterfaceAnswersByThePlatform : Obligations.MemoryInterfaceAnswersByThePlatform := by
  intro s a v readFault writeFault readAnswer writeAnswer
  have hread (r : Option (Byte × Nat)) : answerRead a s r = readAnswer r := by cases r <;> rfl
  have hwrite (r : Option Nat) : answerWrite a v s r = writeAnswer r := by cases r <;> rfl
  have hlistedRead (h : s.readService a = .listed) :
      memRead a s = readAnswer (s.config.platform.read s.device a) := by
    simp only [memRead, h, hread]
  have hlistedWrite (h : s.writeService a = .listed) :
      memWrite a v s = writeAnswer (s.config.platform.write s.device a v) := by
    simp only [memWrite, h, hwrite]
  refine ⟨memRead_ram, fun h => ⟨writeCell_ram h, memWrite_ram h⟩, fun first cell period h => ?mirrorRead,
    fun first cell period h => ?mirrorWrite, fun x h => ?fixed, fun h => ?ignored, hlistedRead, hlistedWrite,
    fun h => ?deviceRead, fun h => ?deviceWrite, fun h => ?noRead, fun h => ?noWrite, fun f h => (memRead_error h).1,
    fun f h => (memWrite_error h).1, fun k read write m hplatform hdevice => ⟨?functionsRead, ?functionsWrite⟩⟩
  case mirrorRead | fixed =>
    simp only [memRead, h]
    rfl
  case mirrorWrite =>
    simp only [memWrite, State.writeCell, h]
    exact ⟨rfl, rfl⟩
  case ignored =>
    simp only [memWrite, h]
    rfl
  case deviceRead => simp only [memRead, h, hread]
  case deviceWrite => simp only [memWrite, h, hwrite]
  case noRead =>
    simp only [memRead, h]
    rfl
  case noWrite =>
    simp only [memWrite, h]
    rfl
  case functionsRead =>
    have hlisted : s.readService a = .listed := by
      simp only [State.readService, hplatform, regionAt_ofFunctions]
    rw [hlistedRead hlisted, hplatform, hdevice, ofFunctions_read]
  case functionsWrite =>
    have hlisted : s.writeService a = .listed := by
      simp only [State.writeService, hplatform, regionAt_ofFunctions]
    rw [hlistedWrite hlisted, hplatform, hdevice, ofFunctions_write]

end Sys2Proof.Machine
end

section
/-! The statements that are left of 10_state.md, 20_memory.md and 70_reset_and_hazards.md: power-on, the host's setters,
the flag accessors, the canonical form of memory, the cycle parameter. -/

namespace Sys2Proof.Machine

/-! ## Power-on, setters and flags (10_state.md) -/

theorem getLsbD_or_unused_mask (v : Byte) {k : Nat} (hk : k < 8) :
    (v ||| 0x20).getLsbD k = (v.getLsbD k || k == 5) := by
  have hmask : ∀ k < 8, (0x20 : Byte).getLsbD k = (k == 5) := by decide
  rw [BitVec.getLsbD_or, hmask k hk]

/-- Settles O26: each field of the state after power-on, P bit by bit. -/
theorem powerOnSetsTheParameterValues : Obligations.PowerOnSetsTheParameterValues :=
  fun c _ _ => ⟨rfl, rfl, rfl, rfl, rfl, fun _ => getLsbD_or_unused_mask c.reset.p, rfl, rfl, rfl, rfl, rfl, rfl⟩

/-- Settles O27: each call is the one update of its register. -/
theorem hostSettersReplaceOneRegister : Obligations.HostSettersReplaceOneRegister :=
  fun _ _ _ => ⟨rfl, rfl, rfl, rfl, rfl, rfl, rfl⟩

theorem getFlag_eq_decide (f : Flag) (p : Byte) : getFlag f p = decide ((p &&& f.mask) ≠ 0) := by
  rw [getFlag, bne, beq_eq_decide, ← decide_not]

/-- Settles O28: a set of one flag is a get of that flag and of no other. -/
theorem flagAccessorsTouchOneBit : Obligations.FlagAccessorsTouchOneBit :=
  fun f _ v p => ⟨getFlag_eq_decide f p, getFlag_setFlag_same f v p, by revert p; decide, setFlag_unused_false p,
    getFlag_setFlag_other v p, rfl⟩

/-! ## Memory (20_memory.md section 1) -/

/-- Settles O31: a write sets the one cell its address stands for, and a read does not change it. -/
theorem plainCellReadsBackTheLastWrite : Obligations.PlainCellReadsBackTheLastWrite := by
  intro s a v hwf
  refine ⟨fun hw => ⟨_, memWrite_ram hw, fun hr => ?same, fun b hb hr => ?other⟩,
    fun t ht => ⟨memWrite_wf ht hwf, writeCell_ram, fun b hb => memWrite_peek_other ht hb⟩⟩
  case same =>
    have hread := memRead_ram (s := (s.poke a v).log (.write a v)) hr
    rw [peek_log, peek_poke_same s a v hwf] at hread
    exact ⟨_, hread⟩
  case other =>
    have hread := memRead_ram (s := (s.poke a v).log (.write a v)) hr
    rw [peek_log, peek_poke_other s v hb] at hread
    exact ⟨_, hread⟩

theorem read_cons (c : Host.Cell) (m : Memory) (a : Nat) :
    Memory.read (c :: m) a = if c.1 = a then c.2 else Memory.read m a := rfl

/-- The tail of a canonical memory is canonical, and lies above the head. -/
theorem wf_cons {c : Host.Cell} {m : Memory} (h : Memory.wf (c :: m)) :
    (∀ d ∈ m, c.1 < d.1) ∧ c.1 < 65536 ∧ c.2 ≠ Memory.unlisted ∧ Memory.wf m := by
  obtain ⟨hs, hv⟩ := h
  obtain ⟨hlt, hs⟩ := List.pairwise_cons.mp hs
  obtain ⟨hc, hv⟩ := List.forall_mem_cons.mp hv
  exact ⟨hlt, hc.1, hc.2, hs, hv⟩

/-- The two memories read alike at every address. -/
def ReadAlike (m n : Memory) : Prop := ∀ a < 65536, Memory.read m a = Memory.read n a

/-- Of two canonical memories that read alike neither begins after the other: the cell listed first in the one is not an
unlisted cell of the other. -/
theorem head_le {c d : Host.Cell} {m n : Memory} (hm : Memory.wf (c :: m)) (hn : Memory.wf (d :: n))
    (h : ReadAlike (c :: m) (d :: n)) : d.1 ≤ c.1 := by
  obtain ⟨-, hc, hne, -⟩ := wf_cons hm
  obtain ⟨hlt, -, -, -⟩ := wf_cons hn
  by_contra hcd
  have hread := h c.1 hc
  rw [read_cons, if_pos rfl, Memory.read_of_lt (d :: n) c.1] at hread
  · exact hne hread
  · exact List.forall_mem_cons.mpr ⟨by omega, fun e he => by have := hlt e he; omega⟩

theorem ne_nil_of_readAlike {c : Host.Cell} {m : Memory} (hm : Memory.wf (c :: m)) : ¬ ReadAlike (c :: m) [] := by
  obtain ⟨-, hc, hne, -⟩ := wf_cons hm
  exact fun h => hne ((if_pos rfl).symm.trans (h c.1 hc))

theorem eq_of_readAlike {m n : Memory} (hm : Memory.wf m) (hn : Memory.wf n) (h : ReadAlike m n) : m = n := by
  induction m generalizing n with
  | nil =>
    cases n with
    | nil => rfl
    | cons d n => exact absurd (fun a ha => (h a ha).symm) (ne_nil_of_readAlike hn)
  | cons c m ih =>
    cases n with
    | nil => exact absurd h (ne_nil_of_readAlike hm)
    | cons d n =>
      obtain ⟨hlt, hc, -, hm'⟩ := wf_cons hm
      obtain ⟨hlt', -, -, hn'⟩ := wf_cons hn
      have hkey : c.1 = d.1 := le_antisymm (head_le hn hm fun a ha => (h a ha).symm) (head_le hm hn h)
      have hcd : c = d := Prod.ext hkey (by simpa [read_cons, hkey] using h c.1 hc)
      subst hcd
      refine congrArg _ (ih hm' hn' fun a ha => ?_)
      have hread := h a ha
      rw [read_cons, read_cons] at hread
      by_cases hca : c.1 = a
      · rw [Memory.read_of_lt m a fun e he => hca ▸ hlt e he, Memory.read_of_lt n a fun e he => hca ▸ hlt' e he]
      · rwa [if_neg hca, if_neg hca] at hread

/-- Settles O32: by induction on the first memory, whose first cell must be that of the second. -/
theorem canonicalMemoriesThatReadAlikeAreEqual : Obligations.CanonicalMemoriesThatReadAlikeAreEqual := by
  refine fun m n hm hn h => eq_of_readAlike hm hn fun a ha => ?_
  have hread := h (BitVec.ofNat 16 a)
  rwa [BitVec.toNat_ofNat, Nat.mod_eq_of_lt ha] at hread

/-! ## The cycle parameter (70_reset_and_hazards.md section 5) -/

/-- Settles O15: the lookup gives the first entry for the opcode. -/
theorem baseCycleParameterDecidesTheCost : Obligations.BaseCycleParameterDecidesTheCost := by
  refine fun s op n => ⟨fun hnone => ?_, fun k l r heq hl => ?_⟩
  · have hlookup : s.config.baseCycles.lookup op = none :=
      List.lookup_eq_none_iff.mpr fun e he => bne_iff_ne.mpr (hnone e he).symm
    rw [State.baseCycles, hlookup]
    rfl
  · have hlookup : s.config.baseCycles.lookup op = some k :=
      List.lookup_eq_some_iff.mpr ⟨l, r, heq, fun e he => bne_iff_ne.mpr (hl e he).symm⟩
    rw [State.baseCycles, hlookup]
    rfl

end Sys2Proof.Machine
end
